-- ==== Sys2Proof/Word.lean ====
section
/-! DEFINITION. The words of the machine (00_scope.md R8): a register, address or pc value is 32 bits, a byte 8 bits, a
parcel (one 16-bit fetch) 16 bits. Register numbers are indexes, not bits. -/

namespace Sys2Proof

/-- A register, address or pc value (00_scope.md R8, 10_state.md R21, R24). -/
abbrev Word := BitVec 32

/-- One byte of memory (10_state.md R31). -/
abbrev Byte := BitVec 8

/-- One 16-bit fetch (00_scope.md section 7, "parcel"). -/
abbrev Parcel := BitVec 16

/-- A register number 0..31 (10_state.md R21). -/
abbrev RegIdx := Fin 32

/-- The value 0..7 of a 3-bit "popular" register field; it names register 8 + f (30_encoding.md R101). -/
abbrev PopIdx := Fin 8

end Sys2Proof
end

