-- ==== Sys2Proof/Config.lean ====
section
/-! DEFINITION. What is fixed for a machine: the parameters of 00_scope.md R8. The constants are the spec's; the model
arguments (MEM_SIZE, SWSP_MISALIGN) are the fields of `Config`. No value of this hardware is left free. -/

namespace Sys2Proof

/-- SWSP_MISALIGN (00_scope.md R8; 20_memory.md R59; OPEN in 92_eei_decisions.md D7): what the direct store of C.SWSP does
at an address that is not a multiple of 4. -/
inductive SwspMisalign where
  | fault
  | exact
  | mask
  deriving DecidableEq, Repr

/-- The model arguments that a run keeps from its reset on (00_scope.md R8, 10_state.md R20, R31). `memSize` is MEM_SIZE,
the number of bytes of backing memory; addresses are 32 bits, so no byte lies at 2^32 or above (log 5). -/
structure Config where
  memSize : Nat
  swspMisalign : SwspMisalign
  deriving DecidableEq, Repr

/-- Backing memory fits the 32-bit address space (00_scope.md R8 "address width"; log 5, DEDUCED). -/
def Config.wf (c : Config) : Bool := decide (c.memSize ≤ 2 ^ 32)

/-- IO_MASK: an address with either of bits 31, 30 set is I/O (00_scope.md R8, 20_memory.md R51). -/
def Config.ioMask : Word := 0xC0000000#32

/-- STORE_BOUND: a routed store to an address greater than this is fatal (00_scope.md R8, 20_memory.md R72). -/
def Config.storeBound : Nat := 65532

/-- RESET_PC (00_scope.md R8). -/
def Config.resetPc : Word := 0#32

/-- IMAGE_BASE: image byte k is memory byte k (00_scope.md R8). -/
def Config.imageBase : Nat := 0

/-- MEM_SIZE as the source fixes it: the length of the image (00_scope.md R8, R10; 92_eei_decisions.md D2). -/
def Config.ofImage (image : List Byte) (m : SwspMisalign) : Config := ⟨image.length, m⟩

/-- The parameters `State.reset` is built with: 64 KiB of backing memory and the recommended SWSP_MISALIGN (log 3, log 4:
DESIGN CHOICE; every statement that is not about `State.reset` holds for every value). -/
def Config.default : Config := ⟨65536, .fault⟩

end Sys2Proof
end

