-- ==== Sys2Proof/Syntax.lean ====
section
/-! DEFINITION. The instructions as data: one constructor per row of spec/opcode_table.json, in the table's order, and the
raw encodings they are decoded from. An immediate is kept with the width the spec gives it, the zero bits that the
encoding does not carry included (30_encoding.md R93 to R97, R102 to R109); WellFormed.lean says which are encodable. -/

namespace Sys2Proof

/-- One raw instruction as fetched: a 16-bit compressed unit or a 32-bit standard word (30_encoding.md R90). -/
inductive Raw where
  | unit (u : BitVec 16)
  | word (w : BitVec 32)
  deriving DecidableEq, Repr

/-- The instructions of the core (00_scope.md R2; 30_encoding.md R98, R110). Operands in the assembler's order
(30_encoding.md R119); `rd`, `rs1`, `rs2` are register numbers, popular registers are the values of their 3-bit fields. -/
inductive Instr where
  /-- R141 `LUI rd, imm20` -/
  | lui (rd : RegIdx) (imm20 : BitVec 20)
  /-- R142 `AUIPC rd, imm20` -/
  | auipc (rd : RegIdx) (imm20 : BitVec 20)
  /-- R176 `JAL rd, offset` -/
  | jal (rd : RegIdx) (imm : BitVec 21)
  /-- R171 `BNE rs1, rs2, offset` -/
  | bne (rs1 rs2 : RegIdx) (imm : BitVec 13)
  /-- R172 `BLT rs1, rs2, offset` -/
  | blt (rs1 rs2 : RegIdx) (imm : BitVec 13)
  /-- R173 `BGE rs1, rs2, offset` -/
  | bge (rs1 rs2 : RegIdx) (imm : BitVec 13)
  /-- R174 `BLTU rs1, rs2, offset` -/
  | bltu (rs1 rs2 : RegIdx) (imm : BitVec 13)
  /-- R175 `BGEU rs1, rs2, offset` -/
  | bgeu (rs1 rs2 : RegIdx) (imm : BitVec 13)
  /-- R162 `LW rd, imm(rs1)` -/
  | lw (rd rs1 : RegIdx) (imm : BitVec 12)
  /-- R161 `LBU rd, imm(rs1)` -/
  | lbu (rd rs1 : RegIdx) (imm : BitVec 12)
  /-- R163 `SW rs2, imm(rs1)` -/
  | sw (rs2 rs1 : RegIdx) (imm : BitVec 12)
  /-- R143 `ADDI rd, rs1, imm` -/
  | addi (rd rs1 : RegIdx) (imm : BitVec 12)
  /-- R144 `ANDI rd, rs1, imm` -/
  | andi (rd rs1 : RegIdx) (imm : BitVec 12)
  /-- R145 `ADD rd, rs1, rs2` -/
  | add (rd rs1 rs2 : RegIdx)
  /-- R146 `SUB rd, rs1, rs2` -/
  | sub (rd rs1 rs2 : RegIdx)
  /-- R147 `XOR rd, rs1, rs2` -/
  | xor (rd rs1 rs2 : RegIdx)
  /-- R191 `C.ADDI4SPN rd', imm` -/
  | cAddi4spn (rd : PopIdx) (imm : BitVec 10)
  /-- R211 `C.LW rd', uimm(rs1')` -/
  | cLw (rd rs1 : PopIdx) (uimm : BitVec 7)
  /-- R212 `C.SW rs2', uimm(rs1')` -/
  | cSw (rs2 rs1 : PopIdx) (uimm : BitVec 7)
  /-- R192 `C.ADDI rd, imm` -/
  | cAddi (rd : RegIdx) (imm : BitVec 6)
  /-- R221 `C.JAL offset` -/
  | cJal (imm : BitVec 12)
  /-- R193 `C.LI rd, imm` -/
  | cLi (rd : RegIdx) (imm : BitVec 6)
  /-- R194 `C.ADDI16SP imm`, the form with `unit[11:7] = 0` -/
  | cAddi16spField0 (imm : BitVec 10)
  /-- R194 `C.ADDI16SP imm`, the form with `unit[11:7] = 2` -/
  | cAddi16spField2 (imm : BitVec 10)
  /-- R195 `C.LUI rd, imm6` -/
  | cLui (rd : RegIdx) (imm6 : BitVec 6)
  /-- R196 `C.ANDI rd', imm` -/
  | cAndi (rd : PopIdx) (imm : BitVec 6)
  /-- R222 `C.J offset` -/
  | cJ (imm : BitVec 12)
  /-- R223 `C.BEQZ rs1', offset` -/
  | cBeqz (rs1 : PopIdx) (imm : BitVec 9)
  /-- R224 `C.BNEZ rs1', offset` -/
  | cBnez (rs1 : PopIdx) (imm : BitVec 9)
  /-- R225 `C.JR rs1` -/
  | cJr (rs1 : RegIdx)
  /-- R197 `C.MV rd, rs2` -/
  | cMv (rd rs2 : RegIdx)
  /-- R198 `C.ADD rd, rs2` -/
  | cAdd (rd rs2 : RegIdx)
  /-- R213 `C.SWSP rs2, uimm` -/
  | cSwsp (rs2 : RegIdx) (uimm : BitVec 8)
  deriving DecidableEq, Repr

end Sys2Proof
end

