-- ==== Sys2Proof/Machine/State.lean ====
section
/-! DEFINITION. The state of the core (10_state.md R20, R34; 70_reset_and_hazards.md R300): the register file, the pc, the
backing memory, the run state, the output events, and the parameters the run was started with. -/

namespace Sys2Proof.Machine

/-- Backing memory as a list of (address, byte) pairs in one canonical form: addresses strictly rising, no entry equal to
`Memory.unlisted` (10_state.md R31). -/
abbrev Memory := List Host.Cell

/-- What a byte of backing memory that is not listed reads as: memory beyond the image is 0 at reset (10_state.md R34;
92_eei_decisions.md D2; log 7). -/
def Memory.unlisted : Byte := 0#8

/-- The canonical form, from address `lo` on: addresses strictly rise and no listed byte is the unlisted one. -/
def Memory.wfFrom (lo : Nat) : Memory → Bool
  | [] => true
  | (a, b) :: rest => decide (lo ≤ a) && b != unlisted && wfFrom (a + 1) rest

/-- The canonical form of memory. -/
def Memory.wf (m : Memory) : Bool := wfFrom 0 m

/-- Every listed address is below `n`. -/
def Memory.below (n : Nat) : Memory → Bool
  | [] => true
  | (a, _) :: rest => decide (a < n) && below n rest

/-- The reasons the core halts for, with what the fatal-fault report carries: the complete list of 60_exceptions.md R261.
Each is recorded in the run state by `raise` (R270). -/
inductive HaltReason where
  /-- Raised by the step before any fetch when `pc[0] = 1` (R264). From the source. Safe: the core stops as the spec says. -/
  | oddPc (pc : Word)
  /-- Raised by a parcel fetch at `a` when `a + 2 > MEM_SIZE` (R266). The spec's decision D4. Safe. -/
  | fetchOutOfRange (a : Word)
  /-- Raised by the standard decoder when the word matches no row of R98 (R262). From the source. Safe. -/
  | invalidInstruction (pc : Word) (inst : BitVec 32)
  /-- Raised by the compressed decoder when the unit matches no row of R110 (R263). From the source. Safe. -/
  | invalidCompressed (pc : Word) (unit : BitVec 16) (op : BitVec 2) (funct3 : BitVec 3) (funct4 : BitVec 4)
  /-- Raised by `StoreWord` (SW, C.SW) when the requested address is not I/O and exceeds 65532 (R265). From the source. Safe. -/
  | storeBound (a : Word)
  /-- Raised by `LoadWord`, `LoadByte` (LW, C.LW, LBU) outside backing memory and I/O (R267). The spec's decision D4. Safe. -/
  | loadOutOfRange (a : Word)
  /-- Raised by `StoreWord` at or below 65532 and by `StoreDirect` (C.SWSP) outside backing memory (R268). The spec's
  decision D4. Safe. -/
  | storeOutOfRange (a : Word)
  /-- Raised by `StoreDirect` (C.SWSP) at an address that is not a multiple of 4, when SWSP_MISALIGN is `fault` (R269). The
  spec's decision D7. Safe. -/
  | swspMisaligned (a : Word)
  deriving DecidableEq, Repr

/-- The run state of the dispatch loop (10_state.md R28). -/
inductive RunState where
  | running
  | halted (reason : HaltReason)
  deriving DecidableEq, Repr

/-- The output events (00_scope.md R11, R13; 60_exceptions.md R275, R276, R278). They are appended, never read. -/
inductive Event where
  /-- One per instruction executed: fetch address, raw encoding, and the decoded instruction, which carries the mnemonic and
  the operands (R278; log 10). -/
  | trace (pc : Word) (raw : Raw) (instr : Instr)
  /-- A write of the nonzero value `v` to register 0, discarded (R275). -/
  | x0Write (v : Word)
  /-- A routed load of the requested address `a` in the I/O region, which returned 0 (R276). -/
  | ioLoad (a : Word)
  /-- A routed store of `v` to the requested address `a` in the I/O region, dropped (R276). -/
  | ioStore (a v : Word)
  deriving DecidableEq, Repr

/-- The machine's state. `regs` is x[0]..x[31]; all reads and writes go through `readReg` and `writeReg`, where register 0
is hard-wired (10_state.md R21, R22; log 11). `cfg` holds the parameters MEM_SIZE and SWSP_MISALIGN, which no step changes
(R20, R31). `events` is oldest first. -/
structure State where
  regs : Vector Word 32
  pc : Word
  mem : Memory
  run : RunState
  events : List Event
  cfg : Config
  deriving DecidableEq, Repr

/-- Host-level faults: none. Every fatal fault of this hardware is the run state `halted(reason)`, which is part of the
state (10_state.md R20, R28; 60_exceptions.md R270), so it is a next state and never leaves `State` (log 1). -/
inductive Fault
  deriving DecidableEq, Repr

/-- Refusals. -/
inductive Refusal where
  /-- An instruction that the model gives no meaning yet, by its mnemonic; raised only by an arm of `exec`. Safe. No arm
  raises it: every instruction has its meaning. -/
  | notModelled (mnemonic : String)
  deriving DecidableEq, Repr

/-- What a meaning and a step answer. -/
abbrev Result := Host.Outcome State Fault Refusal

/-- The machine right after reset (10_state.md R34; 70_reset_and_hazards.md R300): running, pc 0, all registers zero, no
events, the empty image, and the parameters of `Config.default` (log 3, log 4, log 6). -/
def State.reset : State where
  regs := Vector.replicate 32 0#32
  pc := Config.resetPc
  mem := []
  run := .running
  events := []
  cfg := Config.default

end Sys2Proof.Machine
end

