-- ==== Sys2Proof/Machine/Flags.lean ====
section
/-! DEFINITION. The hardware has no flags and no condition codes (10_state.md R30): no instruction sets one, and a
conditional branch compares registers directly (42_standard_control.md R170). These are the comparisons. -/

namespace Sys2Proof.Machine

/-- BNE: all 32 bits are compared (42_standard_control.md R171). -/
def condNe (a b : Word) : Bool := a != b

/-- BLT: signed less than (R172). -/
def condLt (a b : Word) : Bool := decide (a.toInt < b.toInt)

/-- BGE: signed greater than or equal (R173). -/
def condGe (a b : Word) : Bool := decide (b.toInt ≤ a.toInt)

/-- BLTU: unsigned less than (R174). -/
def condLtu (a b : Word) : Bool := decide (a.toNat < b.toNat)

/-- BGEU: unsigned greater than or equal (R175). -/
def condGeu (a b : Word) : Bool := decide (b.toNat ≤ a.toNat)

/-- C.BEQZ: all 32 bits are zero (45_compressed_control.md R223). -/
def condZero (a : Word) : Bool := a == 0#32

/-- C.BNEZ: some bit is not zero (45_compressed_control.md R224). -/
def condNonzero (a : Word) : Bool := a != 0#32

end Sys2Proof.Machine
end

