-- ==== Sys2Proof/WellFormed.lean ====
section
/-! DEFINITION. Which instructions have an encoding: the bits an immediate does not carry are zero (30_encoding.md R95,
R97, R104 to R109) and the guards of the compressed opcode map hold (R110). -/

namespace Sys2Proof

/-- The bits of an immediate below `n` are zero: the encoding does not carry them. -/
def lowZero {w : Nat} (n : Nat) (imm : BitVec w) : Bool := imm.extractLsb' 0 n == 0#n

/-- The instruction has an encoding. One line per constructor; `true` where every operand value is encodable. -/
def Instr.wf : Instr → Bool
  | .lui _ _ => true
  | .auipc _ _ => true
  | .jal _ imm => lowZero 1 imm
  | .bne _ _ imm => lowZero 1 imm
  | .blt _ _ imm => lowZero 1 imm
  | .bge _ _ imm => lowZero 1 imm
  | .bltu _ _ imm => lowZero 1 imm
  | .bgeu _ _ imm => lowZero 1 imm
  | .lw _ _ _ => true
  | .lbu _ _ _ => true
  | .sw _ _ _ => true
  | .addi _ _ _ => true
  | .andi _ _ _ => true
  | .add _ _ _ => true
  | .sub _ _ _ => true
  | .xor _ _ _ => true
  | .cAddi4spn rd imm => lowZero 2 imm && !(rd == 0 && imm == 0#10)
  | .cLw _ _ uimm => lowZero 2 uimm
  | .cSw _ _ uimm => lowZero 2 uimm
  | .cAddi _ _ => true
  | .cJal imm => lowZero 1 imm
  | .cLi _ _ => true
  | .cAddi16spField0 imm => lowZero 4 imm
  | .cAddi16spField2 imm => lowZero 4 imm
  | .cLui rd _ => rd != 0 && rd != 2
  | .cAndi _ _ => true
  | .cJ imm => lowZero 1 imm
  | .cBeqz _ imm => lowZero 1 imm
  | .cBnez _ imm => lowZero 1 imm
  | .cJr _ => true
  | .cMv rd rs2 => rd != 0 && rs2 != 0
  | .cAdd rd rs2 => rd != 0 && rs2 != 0
  | .cSwsp _ uimm => lowZero 2 uimm

/-- `Instr.wf` as a decidable statement. -/
abbrev Instr.WellFormed (i : Instr) : Prop := i.wf = true

end Sys2Proof
end

