-- ==== Sys2Proof/Decode.lean ====
section
/-! DEFINITION. Decoding bytes, parcels and words into instructions, and encoding them again (30_encoding.md). Every bit
position is written once, in the field and immediate functions; opcode values are those of R98 and R110 (the spec took
them from general knowledge: log 12). -/

namespace Sys2Proof

/-! ## Bytes, parcels and words (20_memory.md R52; 46_dispatch_loop.md R245) -/

/-- The 16-bit parcel whose byte at the lower address is `b0`: little-endian (20_memory.md R52). -/
def parcelOfBytes (b0 b1 : Byte) : Parcel := b1 ++ b0

/-- The 32-bit word of four bytes, `b0` at the lowest address (20_memory.md R52). -/
def wordOfBytes (b0 b1 b2 b3 : Byte) : Word := b3 ++ b2 ++ b1 ++ b0

/-- Byte `k` of a word, `v[8k+7 : 8k]` (20_memory.md R54). -/
def byteOfWord (v : Word) (k : Nat) : Byte := v.extractLsb' (8 * k) 8

/-- `inst = {hi, lo}`: the parcel at the lower address supplies bits 15:0 (46_dispatch_loop.md R245). -/
def wordOfParcels (lo hi : Parcel) : BitVec 32 := hi ++ lo

/-- A first parcel with low bits 0b11 starts a 32-bit standard instruction; no other bit decides (30_encoding.md R90). -/
def isStandardParcel (lo : Parcel) : Bool := lo.extractLsb' 0 2 == 0b11#2

/-- A 5-bit register field as a register number (30_encoding.md R92, R101). -/
def regOf (b : BitVec 5) : RegIdx := b.toFin

/-- The 5-bit field of a register number. -/
def regBits (r : RegIdx) : BitVec 5 := BitVec.ofFin r

/-- A 3-bit popular field (30_encoding.md R101). -/
def popOf (b : BitVec 3) : PopIdx := b.toFin

/-- The 3-bit field of a popular register. -/
def popBits (p : PopIdx) : BitVec 3 := BitVec.ofFin p

/-! ## Fields of a standard word (30_encoding.md R91 to R97) -/

/-- `inst[6:0]` (R91) -/
def opcode (w : BitVec 32) : BitVec 7 := w.extractLsb' 0 7
/-- `inst[14:12]` (R91) -/
def funct3 (w : BitVec 32) : BitVec 3 := w.extractLsb' 12 3
/-- `inst[31:25]` (R91) -/
def funct7 (w : BitVec 32) : BitVec 7 := w.extractLsb' 25 7
/-- `inst[11:7]` (R92) -/
def fieldRd (w : BitVec 32) : RegIdx := regOf (w.extractLsb' 7 5)
/-- `inst[19:15]` (R92) -/
def fieldRs1 (w : BitVec 32) : RegIdx := regOf (w.extractLsb' 15 5)
/-- `inst[24:20]` (R92) -/
def fieldRs2 (w : BitVec 32) : RegIdx := regOf (w.extractLsb' 20 5)
/-- I format: `inst[31:20]` (R93) -/
def fieldImmI (w : BitVec 32) : BitVec 12 := w.extractLsb' 20 12
/-- S format: `{inst[31:25], inst[11:7]}` (R94) -/
def fieldImmS (w : BitVec 32) : BitVec 12 := w.extractLsb' 25 7 ++ w.extractLsb' 7 5
/-- B format: `{inst[31], inst[7], inst[30:25], inst[11:8], 0}` (R95) -/
def fieldImmB (w : BitVec 32) : BitVec 13 :=
  w.extractLsb' 31 1 ++ w.extractLsb' 7 1 ++ w.extractLsb' 25 6 ++ w.extractLsb' 8 4 ++ 0#1
/-- U format: `inst[31:12]` (R96) -/
def fieldImm20 (w : BitVec 32) : BitVec 20 := w.extractLsb' 12 20
/-- J format: `{inst[31], inst[19:12], inst[20], inst[30:21], 0}` (R97) -/
def fieldImmJ (w : BitVec 32) : BitVec 21 :=
  w.extractLsb' 31 1 ++ w.extractLsb' 12 8 ++ w.extractLsb' 20 1 ++ w.extractLsb' 21 10 ++ 0#1

/-! ## The standard decoder (30_encoding.md R98, R99) -/

/-- The branch opcode `1100011`, told apart by funct3 (R98). -/
def decodeBranch (w : BitVec 32) : Option Instr :=
  if funct3 w = 0b001#3 then some (.bne (fieldRs1 w) (fieldRs2 w) (fieldImmB w))
  else if funct3 w = 0b100#3 then some (.blt (fieldRs1 w) (fieldRs2 w) (fieldImmB w))
  else if funct3 w = 0b101#3 then some (.bge (fieldRs1 w) (fieldRs2 w) (fieldImmB w))
  else if funct3 w = 0b110#3 then some (.bltu (fieldRs1 w) (fieldRs2 w) (fieldImmB w))
  else if funct3 w = 0b111#3 then some (.bgeu (fieldRs1 w) (fieldRs2 w) (fieldImmB w))
  else none

/-- The load opcode `0000011` (R98, R164). -/
def decodeLoad (w : BitVec 32) : Option Instr :=
  if funct3 w = 0b010#3 then some (.lw (fieldRd w) (fieldRs1 w) (fieldImmI w))
  else if funct3 w = 0b100#3 then some (.lbu (fieldRd w) (fieldRs1 w) (fieldImmI w))
  else none

/-- The store opcode `0100011` (R98, R164). -/
def decodeStore (w : BitVec 32) : Option Instr :=
  if funct3 w = 0b010#3 then some (.sw (fieldRs2 w) (fieldRs1 w) (fieldImmS w))
  else none

/-- The register-immediate opcode `0010011` (R98). -/
def decodeOpImm (w : BitVec 32) : Option Instr :=
  if funct3 w = 0b000#3 then some (.addi (fieldRd w) (fieldRs1 w) (fieldImmI w))
  else if funct3 w = 0b111#3 then some (.andi (fieldRd w) (fieldRs1 w) (fieldImmI w))
  else none

/-- The register-register opcode `0110011`: all seven bits of funct7 are compared (R98, R99). -/
def decodeOp (w : BitVec 32) : Option Instr :=
  if funct3 w = 0b000#3 then
    if funct7 w = 0x00#7 then some (.add (fieldRd w) (fieldRs1 w) (fieldRs2 w))
    else if funct7 w = 0x20#7 then some (.sub (fieldRd w) (fieldRs1 w) (fieldRs2 w))
    else none
  else if funct3 w = 0b100#3 then
    if funct7 w = 0x00#7 then some (.xor (fieldRd w) (fieldRs1 w) (fieldRs2 w)) else none
  else none

/-- The standard decoder: `none` is an invalid instruction (R98, R99, R112, R115). -/
def decodeStandard (w : BitVec 32) : Option Instr :=
  if opcode w = 0b0110111#7 then some (.lui (fieldRd w) (fieldImm20 w))
  else if opcode w = 0b0010111#7 then some (.auipc (fieldRd w) (fieldImm20 w))
  else if opcode w = 0b1101111#7 then some (.jal (fieldRd w) (fieldImmJ w))
  else if opcode w = 0b1100011#7 then decodeBranch w
  else if opcode w = 0b0000011#7 then decodeLoad w
  else if opcode w = 0b0100011#7 then decodeStore w
  else if opcode w = 0b0010011#7 then decodeOpImm w
  else if opcode w = 0b0110011#7 then decodeOp w
  else none

/-! ## Fields of a compressed unit (30_encoding.md R100 to R109) -/

/-- `unit[1:0]` (R100) -/
def cOp (u : BitVec 16) : BitVec 2 := u.extractLsb' 0 2
/-- `unit[15:13]` (R100) -/
def cFunct3 (u : BitVec 16) : BitVec 3 := u.extractLsb' 13 3
/-- `unit[15:12]` (R100) -/
def cFunct4 (u : BitVec 16) : BitVec 4 := u.extractLsb' 12 4
/-- `unit[11:10]`, the 2-bit sub-field of C.ANDI (R110, R196) -/
def cFunct2 (u : BitVec 16) : BitVec 2 := u.extractLsb' 10 2
/-- `unit[11:7]` (R101) -/
def cReg (u : BitVec 16) : RegIdx := regOf (u.extractLsb' 7 5)
/-- `unit[6:2]` (R101) -/
def cReg2 (u : BitVec 16) : RegIdx := regOf (u.extractLsb' 2 5)
/-- `unit[9:7]` (R101) -/
def cPop1 (u : BitVec 16) : PopIdx := popOf (u.extractLsb' 7 3)
/-- `unit[4:2]` (R101) -/
def cPop2 (u : BitVec 16) : PopIdx := popOf (u.extractLsb' 2 3)
/-- `{unit[12], unit[6:2]}`: C.ADDI, C.LI, C.ANDI (R102) and the six bits of C.LUI (R103) -/
def cImm6 (u : BitVec 16) : BitVec 6 := u.extractLsb' 12 1 ++ u.extractLsb' 2 5
/-- `{unit[12], unit[4:3], unit[5], unit[2], unit[6], 0^4}` (R104) -/
def cImm16sp (u : BitVec 16) : BitVec 10 :=
  u.extractLsb' 12 1 ++ u.extractLsb' 3 2 ++ u.extractLsb' 5 1 ++ u.extractLsb' 2 1 ++ u.extractLsb' 6 1 ++ 0#4
/-- `{unit[10:7], unit[12:11], unit[5], unit[6], 0^2}` (R105) -/
def cImm4spn (u : BitVec 16) : BitVec 10 :=
  u.extractLsb' 7 4 ++ u.extractLsb' 11 2 ++ u.extractLsb' 5 1 ++ u.extractLsb' 6 1 ++ 0#2
/-- `{unit[12], unit[8], unit[10:9], unit[6], unit[7], unit[2], unit[11], unit[5:3], 0}` (R106) -/
def cImmJ (u : BitVec 16) : BitVec 12 :=
  u.extractLsb' 12 1 ++ u.extractLsb' 8 1 ++ u.extractLsb' 9 2 ++ u.extractLsb' 6 1 ++ u.extractLsb' 7 1 ++
    u.extractLsb' 2 1 ++ u.extractLsb' 11 1 ++ u.extractLsb' 3 3 ++ 0#1
/-- `{unit[12], unit[6:5], unit[2], unit[11:10], unit[4:3], 0}` (R107) -/
def cImmB (u : BitVec 16) : BitVec 9 :=
  u.extractLsb' 12 1 ++ u.extractLsb' 5 2 ++ u.extractLsb' 2 1 ++ u.extractLsb' 10 2 ++ u.extractLsb' 3 2 ++ 0#1
/-- `{unit[5], unit[12:10], unit[6], 0^2}` (R108) -/
def cUimmLw (u : BitVec 16) : BitVec 7 :=
  u.extractLsb' 5 1 ++ u.extractLsb' 10 3 ++ u.extractLsb' 6 1 ++ 0#2
/-- `{unit[8:7], unit[12:9], 0^2}` (R109) -/
def cUimmSwsp (u : BitVec 16) : BitVec 8 := u.extractLsb' 7 2 ++ u.extractLsb' 9 4 ++ 0#2

/-! ## The compressed decoder (30_encoding.md R110, R111) -/

/-- `op = 00` (R110): the all-zero unit is excluded from C.ADDI4SPN (R113). -/
def decodeQuadrant0 (u : BitVec 16) : Option Instr :=
  if cFunct3 u = 0b000#3 then
    if u = 0x0000#16 then none else some (.cAddi4spn (cPop2 u) (cImm4spn u))
  else if cFunct3 u = 0b010#3 then some (.cLw (cPop2 u) (cPop1 u) (cUimmLw u))
  else if cFunct3 u = 0b110#3 then some (.cSw (cPop2 u) (cPop1 u) (cUimmLw u))
  else none

/-- `op = 01` (R110): C.ADDI16SP takes `unit[11:7]` 0 and 2, C.LUI every other value (R111). -/
def decodeQuadrant1 (u : BitVec 16) : Option Instr :=
  if cFunct3 u = 0b000#3 then some (.cAddi (cReg u) (cImm6 u))
  else if cFunct3 u = 0b001#3 then some (.cJal (cImmJ u))
  else if cFunct3 u = 0b010#3 then some (.cLi (cReg u) (cImm6 u))
  else if cFunct3 u = 0b011#3 then
    if cReg u = 0 then some (.cAddi16spField0 (cImm16sp u))
    else if cReg u = 2 then some (.cAddi16spField2 (cImm16sp u))
    else some (.cLui (cReg u) (cImm6 u))
  else if cFunct3 u = 0b100#3 then
    if cFunct2 u = 0b10#2 then some (.cAndi (cPop1 u) (cImm6 u)) else none
  else if cFunct3 u = 0b101#3 then some (.cJ (cImmJ u))
  else if cFunct3 u = 0b110#3 then some (.cBeqz (cPop1 u) (cImmB u))
  else some (.cBnez (cPop1 u) (cImmB u))

/-- `op = 10` (R110): C.JR and C.MV split funct4 1000 by `unit[6:2]`; both register fields of C.MV and C.ADD are nonzero. -/
def decodeQuadrant2 (u : BitVec 16) : Option Instr :=
  if cFunct4 u = 0b1000#4 then
    if cReg2 u = 0 then some (.cJr (cReg u))
    else if cReg u = 0 then none
    else some (.cMv (cReg u) (cReg2 u))
  else if cFunct4 u = 0b1001#4 then
    if cReg u = 0 ∨ cReg2 u = 0 then none else some (.cAdd (cReg u) (cReg2 u))
  else if cFunct3 u = 0b110#3 then some (.cSwsp (cReg2 u) (cUimmSwsp u))
  else none

/-- The compressed decoder: `none` is an invalid compressed unit (R110, R111, R113). -/
def decodeCompressed (u : BitVec 16) : Option Instr :=
  if cOp u = 0b00#2 then decodeQuadrant0 u
  else if cOp u = 0b01#2 then decodeQuadrant1 u
  else if cOp u = 0b10#2 then decodeQuadrant2 u
  else none

/-- The decoder a raw instruction is routed to (46_dispatch_loop.md R246). -/
def decodeRaw : Raw → Option Instr
  | .unit u => decodeCompressed u
  | .word w => decodeStandard w

/-! ## Decoding bytes -/

/-- What decoding a list of bytes answers: an instruction, its raw encoding and the bytes after it, or a rejection by name
(`truncated`: the bytes end inside an instruction; the other two as 30_encoding.md R112, R113). -/
inductive Decoded where
  | instr (raw : Raw) (i : Instr) (rest : List Byte)
  | truncated
  | invalidInstruction (inst : BitVec 32)
  | invalidCompressed (unit : BitVec 16)
  deriving DecidableEq, Repr

/-- The answer for a compressed unit with `rest` after it. -/
def decodeUnit (u : BitVec 16) (rest : List Byte) : Decoded :=
  match decodeCompressed u with
  | some i => .instr (.unit u) i rest
  | none => .invalidCompressed u

/-- The answer for a standard word with `rest` after it. -/
def decodeWord (w : BitVec 32) (rest : List Byte) : Decoded :=
  match decodeStandard w with
  | some i => .instr (.word w) i rest
  | none => .invalidInstruction w

/-- Decode the instruction at the head of a list of bytes, the first byte at the lowest address (30_encoding.md R90;
46_dispatch_loop.md R244, R245). Total: any bytes give an answer. -/
def decode : List Byte → Decoded
  | b0 :: b1 :: rest =>
    if isStandardParcel (parcelOfBytes b0 b1) then
      match rest with
      | b2 :: b3 :: rest' => decodeWord (wordOfParcels (parcelOfBytes b0 b1) (parcelOfBytes b2 b3)) rest'
      | _ => .truncated
    else decodeUnit (parcelOfBytes b0 b1) rest
  | _ => .truncated

/-! ## The encoder -/

/-- R format (30_encoding.md R92). -/
def encodeR (f7 : BitVec 7) (rs2 rs1 : RegIdx) (f3 : BitVec 3) (rd : RegIdx) (op : BitVec 7) : Raw :=
  .word (f7 ++ regBits rs2 ++ regBits rs1 ++ f3 ++ regBits rd ++ op)

/-- I format (R92, R93). -/
def encodeI (imm : BitVec 12) (rs1 : RegIdx) (f3 : BitVec 3) (rd : RegIdx) (op : BitVec 7) : Raw :=
  .word (imm ++ regBits rs1 ++ f3 ++ regBits rd ++ op)

/-- S format (R92, R94). -/
def encodeS (imm : BitVec 12) (rs2 rs1 : RegIdx) (f3 : BitVec 3) (op : BitVec 7) : Raw :=
  .word (imm.extractLsb' 5 7 ++ regBits rs2 ++ regBits rs1 ++ f3 ++ imm.extractLsb' 0 5 ++ op)

/-- B format, the branch opcode (R92, R95). -/
def encodeB (imm : BitVec 13) (rs2 rs1 : RegIdx) (f3 : BitVec 3) : Raw :=
  .word (imm.extractLsb' 12 1 ++ imm.extractLsb' 5 6 ++ regBits rs2 ++ regBits rs1 ++ f3 ++
    imm.extractLsb' 1 4 ++ imm.extractLsb' 11 1 ++ 0b1100011#7)

/-- U format (R92, R96). -/
def encodeU (imm20 : BitVec 20) (rd : RegIdx) (op : BitVec 7) : Raw :=
  .word (imm20 ++ regBits rd ++ op)

/-- J format, the JAL opcode (R92, R97). -/
def encodeJ (imm : BitVec 21) (rd : RegIdx) : Raw :=
  .word (imm.extractLsb' 20 1 ++ imm.extractLsb' 1 10 ++ imm.extractLsb' 11 1 ++ imm.extractLsb' 12 8 ++
    regBits rd ++ 0b1101111#7)

/-- CI layout with the 6-bit immediate (R101, R102, R103). -/
def encodeCI (f3 : BitVec 3) (rd : RegIdx) (imm : BitVec 6) : Raw :=
  .unit (f3 ++ imm.extractLsb' 5 1 ++ regBits rd ++ imm.extractLsb' 0 5 ++ 0b01#2)

/-- CI layout of C.ADDI16SP; `r` is the value of `unit[11:7]` (R101, R104). -/
def encodeC16sp (r : BitVec 5) (imm : BitVec 10) : Raw :=
  .unit (0b011#3 ++ imm.extractLsb' 9 1 ++ r ++ imm.extractLsb' 4 1 ++ imm.extractLsb' 6 1 ++
    imm.extractLsb' 7 2 ++ imm.extractLsb' 5 1 ++ 0b01#2)

/-- CIW layout (R101, R105). -/
def encodeCIW (rd : PopIdx) (imm : BitVec 10) : Raw :=
  .unit (0b000#3 ++ imm.extractLsb' 4 2 ++ imm.extractLsb' 6 4 ++ imm.extractLsb' 2 1 ++ imm.extractLsb' 3 1 ++
    popBits rd ++ 0b00#2)

/-- CL and CS layouts: `rp1` at 9:7, `rp2` at 4:2 (R101, R108). -/
def encodeCLS (f3 : BitVec 3) (rp2 rp1 : PopIdx) (uimm : BitVec 7) : Raw :=
  .unit (f3 ++ uimm.extractLsb' 3 3 ++ popBits rp1 ++ uimm.extractLsb' 2 1 ++ uimm.extractLsb' 6 1 ++
    popBits rp2 ++ 0b00#2)

/-- CJ layout (R101, R106). -/
def encodeCJ (f3 : BitVec 3) (imm : BitVec 12) : Raw :=
  .unit (f3 ++ imm.extractLsb' 11 1 ++ imm.extractLsb' 4 1 ++ imm.extractLsb' 8 2 ++ imm.extractLsb' 10 1 ++
    imm.extractLsb' 6 1 ++ imm.extractLsb' 7 1 ++ imm.extractLsb' 1 3 ++ imm.extractLsb' 5 1 ++ 0b01#2)

/-- CB layout (R101, R107). -/
def encodeCB (f3 : BitVec 3) (rs1 : PopIdx) (imm : BitVec 9) : Raw :=
  .unit (f3 ++ imm.extractLsb' 8 1 ++ imm.extractLsb' 3 2 ++ popBits rs1 ++ imm.extractLsb' 6 2 ++
    imm.extractLsb' 1 2 ++ imm.extractLsb' 5 1 ++ 0b01#2)

/-- CB-imm layout of C.ANDI (R101, R102, R196). -/
def encodeCBImm (rd : PopIdx) (imm : BitVec 6) : Raw :=
  .unit (0b100#3 ++ imm.extractLsb' 5 1 ++ 0b10#2 ++ popBits rd ++ imm.extractLsb' 0 5 ++ 0b01#2)

/-- CR layout (R101). -/
def encodeCR (f4 : BitVec 4) (r r2 : RegIdx) : Raw :=
  .unit (f4 ++ regBits r ++ regBits r2 ++ 0b10#2)

/-- CSS layout (R101, R109). -/
def encodeCSS (rs2 : RegIdx) (uimm : BitVec 8) : Raw :=
  .unit (0b110#3 ++ uimm.extractLsb' 2 4 ++ uimm.extractLsb' 6 2 ++ regBits rs2 ++ 0b10#2)

/-- The encoding of an instruction, from the same tables (30_encoding.md R98, R110). Bits of an ill-formed instruction
that the encoding does not carry are dropped. -/
def encode : Instr → Raw
  | .lui rd imm20 => encodeU imm20 rd 0b0110111#7
  | .auipc rd imm20 => encodeU imm20 rd 0b0010111#7
  | .jal rd imm => encodeJ imm rd
  | .bne rs1 rs2 imm => encodeB imm rs2 rs1 0b001#3
  | .blt rs1 rs2 imm => encodeB imm rs2 rs1 0b100#3
  | .bge rs1 rs2 imm => encodeB imm rs2 rs1 0b101#3
  | .bltu rs1 rs2 imm => encodeB imm rs2 rs1 0b110#3
  | .bgeu rs1 rs2 imm => encodeB imm rs2 rs1 0b111#3
  | .lw rd rs1 imm => encodeI imm rs1 0b010#3 rd 0b0000011#7
  | .lbu rd rs1 imm => encodeI imm rs1 0b100#3 rd 0b0000011#7
  | .sw rs2 rs1 imm => encodeS imm rs2 rs1 0b010#3 0b0100011#7
  | .addi rd rs1 imm => encodeI imm rs1 0b000#3 rd 0b0010011#7
  | .andi rd rs1 imm => encodeI imm rs1 0b111#3 rd 0b0010011#7
  | .add rd rs1 rs2 => encodeR 0x00#7 rs2 rs1 0b000#3 rd 0b0110011#7
  | .sub rd rs1 rs2 => encodeR 0x20#7 rs2 rs1 0b000#3 rd 0b0110011#7
  | .xor rd rs1 rs2 => encodeR 0x00#7 rs2 rs1 0b100#3 rd 0b0110011#7
  | .cAddi4spn rd imm => encodeCIW rd imm
  | .cLw rd rs1 uimm => encodeCLS 0b010#3 rd rs1 uimm
  | .cSw rs2 rs1 uimm => encodeCLS 0b110#3 rs2 rs1 uimm
  | .cAddi rd imm => encodeCI 0b000#3 rd imm
  | .cJal imm => encodeCJ 0b001#3 imm
  | .cLi rd imm => encodeCI 0b010#3 rd imm
  | .cAddi16spField0 imm => encodeC16sp 0b00000#5 imm
  | .cAddi16spField2 imm => encodeC16sp 0b00010#5 imm
  | .cLui rd imm6 => encodeCI 0b011#3 rd imm6
  | .cAndi rd imm => encodeCBImm rd imm
  | .cJ imm => encodeCJ 0b101#3 imm
  | .cBeqz rs1 imm => encodeCB 0b110#3 rs1 imm
  | .cBnez rs1 imm => encodeCB 0b111#3 rs1 imm
  | .cJr rs1 => encodeCR 0b1000#4 rs1 0
  | .cMv rd rs2 => encodeCR 0b1000#4 rd rs2
  | .cAdd rd rs2 => encodeCR 0b1001#4 rd rs2
  | .cSwsp rs2 uimm => encodeCSS rs2 uimm

/-- The bytes of a raw instruction as memory holds them, lowest address first (20_memory.md R52; 46_dispatch_loop.md R245). -/
def Raw.bytes : Raw → List Byte
  | .unit u => [u.extractLsb' 0 8, u.extractLsb' 8 8]
  | .word w => [byteOfWord w 0, byteOfWord w 1, byteOfWord w 2, byteOfWord w 3]

/-- The length of a raw instruction in bytes (30_encoding.md R90). -/
def Raw.length : Raw → Nat
  | .unit _ => 2
  | .word _ => 4

/-! ## The opcode table's numbering (the host's reading of one row's word) -/

/-- The four bytes of an instruction whose bits are `w`, bit 0 the least significant bit of the first byte; bits from
`nbits` up are zero. -/
def tableBytes (nbits w : Nat) : List Byte :=
  let v : Word := BitVec.ofNat 32 (w % 2 ^ nbits)
  [byteOfWord v 0, byteOfWord v 1, byteOfWord v 2, byteOfWord v 3]

/-- The instruction the decoder reads from the word `w` of an opcode-table row of `nbits` bits. -/
def decodeTableWord (nbits w : Nat) : Option Instr :=
  match decode (tableBytes nbits w) with
  | .instr _ i _ => some i
  | .truncated => none
  | .invalidInstruction _ => none
  | .invalidCompressed _ => none

end Sys2Proof
end

