-- ==== Sys2Proof/Machine/Ops.lean ====
section
/-! DEFINITION. The named operations over registers, memory and run state: register reads and writes (10_state.md R21,
R22), the pc (R24, R25), raw memory (20_memory.md R53, R54), the access primitives of the load-store unit (R55 to R59), the
entry into a fatal fault (60_exceptions.md R270), fetching and decoding (46_dispatch_loop.md R242 to R246), loading an
image (70_reset_and_hazards.md R301). -/

namespace Sys2Proof.Machine

/-! ## Events, pc, registers -/

/-- `emit e`: append an event to the output list (00_scope.md section 6, R13). -/
def State.emit (e : Event) (s : State) : State := { s with events := s.events ++ [e] }

/-- `pc <- t` (10_state.md R25). -/
def State.setPc (t : Word) (s : State) : State := { s with pc := t }

/-- `pc <- pc + len`, modulo 2^32 (10_state.md R25, R27). -/
def State.advance (len : Word) (s : State) : State := s.setPc (s.pc + len)

/-- `x[i]`: register 0 reads as zero (10_state.md R21). -/
def State.readReg (i : RegIdx) (s : State) : Word := if i = 0 then 0#32 else s.regs[i]

/-- `x[i] <- v`: a write of register 0 stores nothing and emits `Diag.X0Write(v)` when `v` is not 0 (10_state.md R22;
60_exceptions.md R275). -/
def State.writeReg (i : RegIdx) (v : Word) (s : State) : State :=
  if i = 0 then
    if v = 0#32 then s else s.emit (.x0Write v)
  else { s with regs := s.regs.set i v }

/-! ## Fatal faults -/

/-- `raise F`, fault entry (60_exceptions.md R270): the run state becomes `halted(F)`; nothing else changes. There is no
return from it (R272): `halted` is terminal. -/
def raise (f : HaltReason) (s : State) : Result := .next { s with run := .halted f }

/-! ## Raw memory -/

/-- The byte listed for address `a`, or the unlisted one. -/
def Memory.read : Memory → Nat → Byte
  | [], _ => unlisted
  | (k, b) :: rest, a => if k = a then b else read rest a

/-- Make address `a` hold `v`, keeping the canonical form. -/
def Memory.write : Memory → Nat → Byte → Memory
  | [], a, v => if v = unlisted then [] else [(a, v)]
  | (k, b) :: rest, a, v =>
    if a < k then
      if v = unlisted then (k, b) :: rest else (a, v) :: (k, b) :: rest
    else if a = k then
      if v = unlisted then rest else (a, v) :: rest
    else (k, b) :: write rest a v

/-- `M[a]`, the byte of backing memory at address `a` (10_state.md R31). -/
def State.readByte (a : Nat) (s : State) : Byte := s.mem.read a

/-- `M[a] <- v`. -/
def State.writeByte (a : Nat) (v : Byte) (s : State) : State := { s with mem := s.mem.write a v }

/-- `MemRead(a, 2)`, little-endian (20_memory.md R53). -/
def State.memRead16 (a : Nat) (s : State) : Parcel := parcelOfBytes (s.readByte a) (s.readByte (a + 1))

/-- `MemRead(a, 4)`, little-endian (20_memory.md R53). -/
def State.memRead32 (a : Nat) (s : State) : Word :=
  wordOfBytes (s.readByte a) (s.readByte (a + 1)) (s.readByte (a + 2)) (s.readByte (a + 3))

/-- `MemWrite(a, n, v)`: for each `k` in `0..n-1`, `M[a + k] <- v[8k+7 : 8k]` (20_memory.md R54). -/
def State.memWrite (a : Nat) (v : Word) : Nat → State → State
  | 0, s => s
  | n + 1, s => (State.memWrite a v n s).writeByte (a + n) (byteOfWord v n)

/-- `MemWrite(a, 4, v)`, the only width an instruction stores (20_memory.md R54, R62). -/
def State.memWrite32 (a : Nat) (v : Word) (s : State) : State := s.memWrite a v 4

/-! ## The load-store unit -/

/-- `IsIo(a)`: one of the two top bits is set (20_memory.md R51). -/
abbrev IsIo (a : Word) : Prop := a &&& Config.ioMask ≠ 0#32

/-- `a & 0xFFFF_FFFC`: the address of the containing aligned word (20_memory.md R56, R60). -/
def wordAlign (a : Word) : Word := a &&& 0xFFFFFFFC#32

/-- The `n` bytes from `a` on lie in backing memory; over the unbounded integers (20_memory.md, before section 1). -/
abbrev InMemory (a n : Nat) (s : State) : Prop := a + n ≤ s.cfg.memSize

/-- `Fetch16(a)`: direct, not routed, no bound, no masking, no event (20_memory.md R55; 60_exceptions.md R266). -/
def State.fetch16 (a : Word) (s : State) : Except HaltReason Parcel :=
  if InMemory a.toNat 2 s then .ok (s.memRead16 a.toNat) else .error (.fetchOutOfRange a)

/-- `LoadWord(a)`: routed, forced to word alignment (20_memory.md R56; 60_exceptions.md R267, R276). -/
def State.loadWord (a : Word) (s : State) : Except HaltReason (Word × State) :=
  if IsIo a then .ok (0#32, s.emit (.ioLoad a))
  else if InMemory (wordAlign a).toNat 4 s then .ok (s.memRead32 (wordAlign a).toNat, s)
  else .error (.loadOutOfRange a)

/-- `LoadByte(a)`: routed, the byte at exactly `a` (20_memory.md R57; 60_exceptions.md R267, R276). -/
def State.loadByte (a : Word) (s : State) : Except HaltReason (Byte × State) :=
  if IsIo a then .ok (0#8, s.emit (.ioLoad a))
  else if InMemory a.toNat 1 s then .ok (s.readByte a.toNat, s)
  else .error (.loadOutOfRange a)

/-- `StoreWord(a, v)`: I/O routing, then the bound on the requested address, then masking, then the range check
(20_memory.md R58, R72; 60_exceptions.md R265, R268, R271, R276). -/
def State.storeWord (a v : Word) (s : State) : Except HaltReason State :=
  if IsIo a then .ok (s.emit (.ioStore a v))
  else if Config.storeBound < a.toNat then .error (.storeBound a)
  else if InMemory (wordAlign a).toNat 4 s then .ok (s.memWrite32 (wordAlign a).toNat v)
  else .error (.storeOutOfRange a)

/-- The last part of `StoreDirect`: store at the access address `a'`, or report the requested address `a` (R59, R268). -/
def State.storeAt (a' a v : Word) (s : State) : Except HaltReason State :=
  if InMemory a'.toNat 4 s then .ok (s.memWrite32 a'.toNat v) else .error (.storeOutOfRange a)

/-- `StoreDirect(a, v)`, used only by C.SWSP: no I/O test, no bound; a misaligned address follows SWSP_MISALIGN
(20_memory.md R59; 60_exceptions.md R268, R269). -/
def State.storeDirect (a v : Word) (s : State) : Except HaltReason State :=
  if a.extractLsb' 0 2 = 0#2 then s.storeAt a a v
  else
    match s.cfg.swspMisalign with
    | .fault => .error (.swspMisaligned a)
    | .exact => s.storeAt a a v
    | .mask => s.storeAt (wordAlign a) a v

/-! ## How an instruction ends -/

/-- `x[rd] <- v; pc <- pc + len` (40_standard_integer.md R149; 43_compressed_integer.md R190). -/
def writeBack (rd : RegIdx) (v len : Word) (s : State) : Result := .next ((s.writeReg rd v).advance len)

/-- `x[rd] <- LoadWord(ea); pc <- pc + len` (41_standard_loadstore.md R160, R162; 44_compressed_loadstore.md R211). -/
def loadWordInto (rd : RegIdx) (ea len : Word) (s : State) : Result :=
  match s.loadWord ea with
  | .error f => raise f s
  | .ok (v, t) => writeBack rd v len t

/-- `x[rd] <- zext_8(LoadByte(ea)); pc <- pc + len` (41_standard_loadstore.md R161). -/
def loadByteInto (rd : RegIdx) (ea len : Word) (s : State) : Result :=
  match s.loadByte ea with
  | .error f => raise f s
  | .ok (b, t) => writeBack rd (b.setWidth 32) len t

/-- A store that succeeded advances pc; one that faulted halts (41_standard_loadstore.md R160; 44_compressed_loadstore.md
R210). -/
def finishStore (len : Word) (r : Except HaltReason State) (s : State) : Result :=
  match r with
  | .error f => raise f s
  | .ok t => .next (t.advance len)

/-- `if cond then pc <- pc + imm else pc <- pc + len`, relative to the branch itself (42_standard_control.md R170;
45_compressed_control.md R220). -/
def branch (cond : Bool) (imm len : Word) (s : State) : Result :=
  .next (s.setPc (if cond then s.pc + imm else s.pc + len))

/-- `x[rd] <- pc + len; pc <- pc + imm`, both from the address of the jump (42_standard_control.md R176;
45_compressed_control.md R221). -/
def jumpAndLink (rd : RegIdx) (imm len : Word) (s : State) : Result :=
  .next ((s.writeReg rd (s.pc + len)).setPc (s.pc + imm))

/-! ## Fetching and decoding one instruction -/

/-- Fetch the raw instruction at pc: one parcel, and a second at pc + 2 (modulo 2^32) when the first has low bits 0b11
(46_dispatch_loop.md R243 to R245). -/
def State.fetchRaw (s : State) : Except HaltReason Raw :=
  match s.fetch16 s.pc with
  | .error f => .error f
  | .ok lo =>
    if isStandardParcel lo then
      match s.fetch16 (s.pc + 2#32) with
      | .error f => .error f
      | .ok hi => .ok (.word (wordOfParcels lo hi))
    else .ok (.unit lo)

/-- What an encoding that matches no row halts with (60_exceptions.md R262, R263). -/
def invalidReason (pc : Word) : Raw → HaltReason
  | .unit u => .invalidCompressed pc u (cOp u) (cFunct3 u) (cFunct4 u)
  | .word w => .invalidInstruction pc w

/-- The parity check, the fetch and the decoding of one step, in this order (46_dispatch_loop.md R240, R242 to R246;
60_exceptions.md R271). -/
def State.fetchDecode (s : State) : Except HaltReason (Raw × Instr) :=
  if s.pc.getLsbD 0 then .error (.oddPc s.pc)
  else
    match s.fetchRaw with
    | .error f => .error f
    | .ok raw =>
      match decodeRaw raw with
      | some i => .ok (raw, i)
      | none => .error (invalidReason s.pc raw)

/-- The trace event comes before the instruction's own diagnostics (60_exceptions.md R278). -/
def State.traced (raw : Raw) (i : Instr) (s : State) : State := s.emit (.trace s.pc raw i)

/-- A step completes its instruction entirely or halts having changed nothing but the run state (46_dispatch_loop.md R250;
60_exceptions.md R270): when the instruction halted, all that is kept of it is the reason. -/
def commit (s : State) : Result → Result
  | .next t =>
    match t.run with
    | .running => .next t
    | .halted f => raise f s
  | .fault f => .fault f
  | .refused r => .refused r

/-! ## Loading an image, and placing one instruction -/

/-- The bytes of an image at `base` and up, in canonical form (00_scope.md R10). -/
def Memory.ofImage (base : Nat) : List Byte → Memory
  | [] => []
  | b :: rest => if b = unlisted then ofImage (base + 1) rest else (base, b) :: ofImage (base + 1) rest

/-- `Reset(IMAGE)`, the host's one move (70_reset_and_hazards.md R300, R301; 10_state.md R34): a fresh machine with the
image at address 0 and memory zero-filled to MEM_SIZE. Image bytes at MEM_SIZE and above do not exist (log 8). -/
def State.resetWith (image : List Byte) (c : Config) : State :=
  { State.reset with mem := Memory.ofImage Config.imageBase (image.take c.memSize), cfg := c }

/-- Store the bytes of a parcel at `a`, making backing memory large enough to hold it. No instruction does this: it stands
for loading a program from outside (log 6, log 14). -/
def State.placeParcel (a : Word) (p : Parcel) (s : State) : State :=
  { (s.writeByte a.toNat (p.extractLsb' 0 8)).writeByte (a.toNat + 1) (p.extractLsb' 8 8) with
    cfg := { s.cfg with memSize := max s.cfg.memSize (a.toNat + 2) } }

/-- Place a 32-bit word as two parcels at pc and pc + 2 of a running machine whose pc is even (log 14). -/
def State.placeAtPc (w : Word) (s : State) : State :=
  let p : Word := s.pc &&& 0xFFFFFFFE#32
  (({ s with pc := p, run := .running }).placeParcel p (w.extractLsb' 0 16)).placeParcel (p + 2#32) (w.extractLsb' 16 16)

end Sys2Proof.Machine
end

