-- ==== Sys2Proof/Machine/Operands.lean ====
section
/-! DEFINITION. The operand forms: immediates as 32-bit values (30_encoding.md R93 to R97, R102 to R109), popular registers
(R101), effective addresses (41_standard_loadstore.md R160; 44_compressed_loadstore.md R210). -/

namespace Sys2Proof.Machine

/-- `sext_N(v)` (00_scope.md section 6). -/
def sext {n : Nat} (v : BitVec n) : Word := v.signExtend 32

/-- `zext_N(v)` (00_scope.md section 6). -/
def zext {n : Nat} (v : BitVec n) : Word := v.setWidth 32

/-- The register named by a popular field: 8 + f (30_encoding.md R101). -/
def popular (f : PopIdx) : RegIdx := ⟨8 + f.val, by omega⟩

/-- The stack pointer, register 2 (10_state.md R23). -/
def sp : RegIdx := 2

/-- The link register of C.JAL, register 1 (10_state.md R23). -/
def ra : RegIdx := 1

/-- `imm_u`: the 20 bits at 31:12, zeros below (30_encoding.md R96). -/
def immU (imm20 : BitVec 20) : Word := imm20 ++ 0#12

/-- `imm_clui`: the six bits at 17:12, sign-extended from bit 17 (30_encoding.md R103). -/
def immClui (imm6 : BitVec 6) : Word := sext (imm6 ++ 0#12)

/-- `ea = x[rs1] + sext(imm)`, modulo 2^32 (41_standard_loadstore.md R160). -/
def eaStandard (rs1 : RegIdx) (imm : BitVec 12) (s : State) : Word := s.readReg rs1 + sext imm

/-- `ea = x[base] + zext(uimm)`, modulo 2^32 (44_compressed_loadstore.md R210). -/
def eaCompressed {n : Nat} (base : RegIdx) (uimm : BitVec n) (s : State) : Word := s.readReg base + zext uimm

end Sys2Proof.Machine
end

