-- ==== Sys2Proof/Machine/CompressedControl.lean ====
section
/-! DEFINITION. Compressed-format control transfer (45_compressed_control.md R220 to R225). -/

namespace Sys2Proof.Machine

/-- C.JAL: `x[1] <- pc + 2; pc <- pc + imm_cj` (R221). -/
def execCJal (imm : BitVec 12) (s : State) : Result :=
  jumpAndLink ra (sext imm) 2#32 s

/-- C.J: `pc <- pc + imm_cj` (R222). -/
def execCJ (imm : BitVec 12) (s : State) : Result :=
  .next (s.setPc (s.pc + sext imm))

/-- C.BEQZ: `if x[rs1'] = 0 then pc <- pc + imm_cb else pc <- pc + 2` (R223). -/
def execCBeqz (rs1 : PopIdx) (imm : BitVec 9) (s : State) : Result :=
  branch (condZero (s.readReg (popular rs1))) (sext imm) 2#32 s

/-- C.BNEZ: `if x[rs1'] != 0 then pc <- pc + imm_cb else pc <- pc + 2` (R224). -/
def execCBnez (rs1 : PopIdx) (imm : BitVec 9) (s : State) : Result :=
  branch (condNonzero (s.readReg (popular rs1))) (sext imm) 2#32 s

/-- C.JR: `pc <- x[rs1]`; no link, bit 0 not cleared (R225). -/
def execCJr (rs1 : RegIdx) (s : State) : Result :=
  .next (s.setPc (s.readReg rs1))

end Sys2Proof.Machine
end

