-- ==== Sys2Proof/Machine/CompressedInteger.lean ====
section
/-! DEFINITION. Compressed-format integer instructions (43_compressed_integer.md R190 to R198). -/

namespace Sys2Proof.Machine

/-- C.ADDI4SPN: `x[rd'] <- x[rd'] + x[2] + imm_4spn; pc <- pc + 2`; the old value of the destination is added in (R191;
90_conflicts.md C7). -/
def execCAddi4spn (rd : PopIdx) (imm : BitVec 10) (s : State) : Result :=
  writeBack (popular rd) (s.readReg (popular rd) + s.readReg sp + sext imm) 2#32 s

/-- C.ADDI: `x[rd] <- x[rd] + imm_ci; pc <- pc + 2` (R192). -/
def execCAddi (rd : RegIdx) (imm : BitVec 6) (s : State) : Result :=
  writeBack rd (s.readReg rd + sext imm) 2#32 s

/-- C.LI: `x[rd] <- imm_ci; pc <- pc + 2` (R193). -/
def execCLi (rd : RegIdx) (imm : BitVec 6) (s : State) : Result :=
  writeBack rd (sext imm) 2#32 s

/-- C.ADDI16SP, field 0: `x[2] <- x[2] + imm_16sp; pc <- pc + 2`; the register written is x2, not x0 (R194). -/
def execCAddi16spField0 (imm : BitVec 10) (s : State) : Result :=
  writeBack sp (s.readReg sp + sext imm) 2#32 s

/-- C.ADDI16SP, field 2: `x[2] <- x[2] + imm_16sp; pc <- pc + 2` (R194). -/
def execCAddi16spField2 (imm : BitVec 10) (s : State) : Result :=
  writeBack sp (s.readReg sp + sext imm) 2#32 s

/-- C.LUI: `x[rd] <- imm_clui; pc <- pc + 2` (R195). -/
def execCLui (rd : RegIdx) (imm6 : BitVec 6) (s : State) : Result :=
  writeBack rd (immClui imm6) 2#32 s

/-- C.ANDI: `x[rd'] <- x[rd'] & imm_ci; pc <- pc + 2` (R196). -/
def execCAndi (rd : PopIdx) (imm : BitVec 6) (s : State) : Result :=
  writeBack (popular rd) (s.readReg (popular rd) &&& sext imm) 2#32 s

/-- C.MV: `x[rd] <- x[rs2]; pc <- pc + 2` (R197). -/
def execCMv (rd rs2 : RegIdx) (s : State) : Result :=
  writeBack rd (s.readReg rs2) 2#32 s

/-- C.ADD: `x[rd] <- x[rd] + x[rs2]; pc <- pc + 2` (R198). -/
def execCAdd (rd rs2 : RegIdx) (s : State) : Result :=
  writeBack rd (s.readReg rd + s.readReg rs2) 2#32 s

end Sys2Proof.Machine
end

