-- ==== Sys2Proof/Machine/CompressedLoadStore.lean ====
section
/-! DEFINITION. Compressed-format loads and stores (44_compressed_loadstore.md R210 to R213). -/

namespace Sys2Proof.Machine

/-- C.LW: `ea = x[rs1'] + uimm_lw; x[rd'] <- LoadWord(ea); pc <- pc + 2` (R211). -/
def execCLw (rd rs1 : PopIdx) (uimm : BitVec 7) (s : State) : Result :=
  loadWordInto (popular rd) (eaCompressed (popular rs1) uimm s) 2#32 s

/-- C.SW: `ea = x[rs1'] + uimm_lw; StoreWord(ea, x[rs2']); pc <- pc + 2` (R212). -/
def execCSw (rs2 rs1 : PopIdx) (uimm : BitVec 7) (s : State) : Result :=
  finishStore 2#32 (s.storeWord (eaCompressed (popular rs1) uimm s) (s.readReg (popular rs2))) s

/-- C.SWSP: `ea = x[2] + uimm_swsp; StoreDirect(ea, x[rs2]); pc <- pc + 2` (R213). -/
def execCSwsp (rs2 : RegIdx) (uimm : BitVec 8) (s : State) : Result :=
  finishStore 2#32 (s.storeDirect (eaCompressed sp uimm s) (s.readReg rs2)) s

end Sys2Proof.Machine
end

