-- ==== Sys2Proof/Machine/Control.lean ====
section
/-! DEFINITION. Standard-format control transfer (42_standard_control.md R170 to R177). -/

namespace Sys2Proof.Machine

/-- BNE: `if x[rs1] != x[rs2] then pc <- pc + imm_b else pc <- pc + 4` (R171). -/
def execBne (rs1 rs2 : RegIdx) (imm : BitVec 13) (s : State) : Result :=
  branch (condNe (s.readReg rs1) (s.readReg rs2)) (sext imm) 4#32 s

/-- BLT: `if signed(x[rs1]) < signed(x[rs2]) then pc <- pc + imm_b else pc <- pc + 4` (R172). -/
def execBlt (rs1 rs2 : RegIdx) (imm : BitVec 13) (s : State) : Result :=
  branch (condLt (s.readReg rs1) (s.readReg rs2)) (sext imm) 4#32 s

/-- BGE: `if signed(x[rs1]) >= signed(x[rs2]) then pc <- pc + imm_b else pc <- pc + 4` (R173). -/
def execBge (rs1 rs2 : RegIdx) (imm : BitVec 13) (s : State) : Result :=
  branch (condGe (s.readReg rs1) (s.readReg rs2)) (sext imm) 4#32 s

/-- BLTU: `if x[rs1] < x[rs2] then pc <- pc + imm_b else pc <- pc + 4`, unsigned (R174). -/
def execBltu (rs1 rs2 : RegIdx) (imm : BitVec 13) (s : State) : Result :=
  branch (condLtu (s.readReg rs1) (s.readReg rs2)) (sext imm) 4#32 s

/-- BGEU: `if x[rs1] >= x[rs2] then pc <- pc + imm_b else pc <- pc + 4`, unsigned (R175). -/
def execBgeu (rs1 rs2 : RegIdx) (imm : BitVec 13) (s : State) : Result :=
  branch (condGeu (s.readReg rs1) (s.readReg rs2)) (sext imm) 4#32 s

/-- JAL: `x[rd] <- pc + 4; pc <- pc + imm_j` (R176). -/
def execJal (rd : RegIdx) (imm : BitVec 21) (s : State) : Result :=
  jumpAndLink rd (sext imm) 4#32 s

end Sys2Proof.Machine
end

