-- ==== Sys2Proof/Machine/Integer.lean ====
section
/-! DEFINITION. Standard-format integer instructions (40_standard_integer.md R141 to R149). -/

namespace Sys2Proof.Machine

/-- LUI: `x[rd] <- imm_u; pc <- pc + 4` (R141). -/
def execLui (rd : RegIdx) (imm20 : BitVec 20) (s : State) : Result :=
  writeBack rd (immU imm20) 4#32 s

/-- AUIPC: `x[rd] <- pc + imm_u; pc <- pc + 4` (R142). -/
def execAuipc (rd : RegIdx) (imm20 : BitVec 20) (s : State) : Result :=
  writeBack rd (s.pc + immU imm20) 4#32 s

/-- ADDI: `x[rd] <- x[rs1] + imm_i; pc <- pc + 4` (R143). -/
def execAddi (rd rs1 : RegIdx) (imm : BitVec 12) (s : State) : Result :=
  writeBack rd (s.readReg rs1 + sext imm) 4#32 s

/-- ANDI: `x[rd] <- x[rs1] & imm_i; pc <- pc + 4` (R144). -/
def execAndi (rd rs1 : RegIdx) (imm : BitVec 12) (s : State) : Result :=
  writeBack rd (s.readReg rs1 &&& sext imm) 4#32 s

/-- ADD: `x[rd] <- x[rs1] + x[rs2]; pc <- pc + 4` (R145). -/
def execAdd (rd rs1 rs2 : RegIdx) (s : State) : Result :=
  writeBack rd (s.readReg rs1 + s.readReg rs2) 4#32 s

/-- SUB: `x[rd] <- x[rs1] - x[rs2]; pc <- pc + 4` (R146). -/
def execSub (rd rs1 rs2 : RegIdx) (s : State) : Result :=
  writeBack rd (s.readReg rs1 - s.readReg rs2) 4#32 s

/-- XOR: `x[rd] <- x[rs1] ^ x[rs2]; pc <- pc + 4` (R147). -/
def execXor (rd rs1 rs2 : RegIdx) (s : State) : Result :=
  writeBack rd (s.readReg rs1 ^^^ s.readReg rs2) 4#32 s

end Sys2Proof.Machine
end

