-- ==== Sys2Proof/Machine/LoadStore.lean ====
section
/-! DEFINITION. Standard-format loads and stores (41_standard_loadstore.md R160 to R163). -/

namespace Sys2Proof.Machine

/-- LBU: `ea = x[rs1] + imm_i; x[rd] <- zext_8(LoadByte(ea)); pc <- pc + 4` (R161). -/
def execLbu (rd rs1 : RegIdx) (imm : BitVec 12) (s : State) : Result :=
  loadByteInto rd (eaStandard rs1 imm s) 4#32 s

/-- LW: `ea = x[rs1] + imm_i; x[rd] <- LoadWord(ea); pc <- pc + 4` (R162). -/
def execLw (rd rs1 : RegIdx) (imm : BitVec 12) (s : State) : Result :=
  loadWordInto rd (eaStandard rs1 imm s) 4#32 s

/-- SW: `ea = x[rs1] + imm_s; StoreWord(ea, x[rs2]); pc <- pc + 4` (R163). -/
def execSw (rs2 rs1 : RegIdx) (imm : BitVec 12) (s : State) : Result :=
  finishStore 4#32 (s.storeWord (eaStandard rs1 imm s) (s.readReg rs2)) s

end Sys2Proof.Machine
end

