-- ==== Sys2Proof/Machine/Step.lean ====
section
/-! DEFINITION. One step of the machine (46_dispatch_loop.md R240), and the placing of one instruction where the next step
fetches. -/

namespace Sys2Proof.Machine

/-- One pass of the dispatch loop (R240): a halted core does nothing (R247); a running one checks the parity of pc, fetches,
decodes and executes one instruction, or halts. -/
def step (s : State) : Host.Outcome State Fault Refusal :=
  match s.run with
  | .halted _ => .next s
  | .running =>
    match s.fetchDecode with
    | .error f => raise f s
    | .ok (raw, i) => commit s (exec i (s.traced raw i))

/-- `s` with the instruction whose bits are `w` (bits from `nbits` up are zero) stored where the next step fetches: the four
bytes at pc, in a running machine with an even pc and a backing memory that holds them (log 14). -/
def State.withFetchWord (s : State) (nbits w : Nat) : State := s.placeAtPc (BitVec.ofNat 32 (w % 2 ^ nbits))

end Sys2Proof.Machine
end

