-- ==== Sys2Proof/Machine/Assembler.lean ====
section
/-! DEFINITION. Presentation: mnemonics and assembler text (30_encoding.md R119), register aliases (10_state.md R23) and the
pseudo-instructions with their expansions (30_encoding.md R120). Nothing here has an effect on execution. -/

namespace Sys2Proof.Machine

/-- The mnemonic of opcode_table.json (30_encoding.md R98, R110, R119). -/
def mnemonic : Instr → String
  | .lui _ _ => "LUI"
  | .auipc _ _ => "AUIPC"
  | .jal _ _ => "JAL"
  | .bne _ _ _ => "BNE"
  | .blt _ _ _ => "BLT"
  | .bge _ _ _ => "BGE"
  | .bltu _ _ _ => "BLTU"
  | .bgeu _ _ _ => "BGEU"
  | .lw _ _ _ => "LW"
  | .lbu _ _ _ => "LBU"
  | .sw _ _ _ => "SW"
  | .addi _ _ _ => "ADDI"
  | .andi _ _ _ => "ANDI"
  | .add _ _ _ => "ADD"
  | .sub _ _ _ => "SUB"
  | .xor _ _ _ => "XOR"
  | .cAddi4spn _ _ => "C.ADDI4SPN"
  | .cLw _ _ _ => "C.LW"
  | .cSw _ _ _ => "C.SW"
  | .cAddi _ _ => "C.ADDI"
  | .cJal _ => "C.JAL"
  | .cLi _ _ => "C.LI"
  | .cAddi16spField0 _ => "C.ADDI16SP"
  | .cAddi16spField2 _ => "C.ADDI16SP"
  | .cLui _ _ => "C.LUI"
  | .cAndi _ _ => "C.ANDI"
  | .cJ _ => "C.J"
  | .cBeqz _ _ => "C.BEQZ"
  | .cBnez _ _ => "C.BNEZ"
  | .cJr _ => "C.JR"
  | .cMv _ _ => "C.MV"
  | .cAdd _ _ => "C.ADD"
  | .cSwsp _ _ => "C.SWSP"

/-- A register as the source's examples write it: `x10` (10_state.md R23). -/
def regText (r : RegIdx) : String := "x" ++ toString r.val

/-- The ABI aliases, which have no effect on execution (10_state.md R23; from general knowledge by the spec's own word). -/
def abiNames : List String :=
  ["zero", "ra", "sp", "gp", "tp", "t0", "t1", "t2"] ++ ["s0", "s1", "a0", "a1", "a2", "a3", "a4", "a5"] ++
    ["a6", "a7", "s2", "s3", "s4", "s5", "s6", "s7"] ++ ["s8", "s9", "s10", "s11", "t3", "t4", "t5", "t6"]

/-- A signed immediate in decimal (30_encoding.md R119). -/
def immText {n : Nat} (v : BitVec n) : String := toString v.toInt

/-- An unsigned field in decimal (30_encoding.md R119). -/
def fieldText {n : Nat} (v : BitVec n) : String := toString v.toNat

/-- The operands in the order and form of 30_encoding.md R119. -/
def operandText : Instr → String
  | .lui rd imm20 => regText rd ++ ", " ++ fieldText imm20
  | .auipc rd imm20 => regText rd ++ ", " ++ fieldText imm20
  | .jal rd imm => regText rd ++ ", " ++ immText imm
  | .bne rs1 rs2 imm => regText rs1 ++ ", " ++ regText rs2 ++ ", " ++ immText imm
  | .blt rs1 rs2 imm => regText rs1 ++ ", " ++ regText rs2 ++ ", " ++ immText imm
  | .bge rs1 rs2 imm => regText rs1 ++ ", " ++ regText rs2 ++ ", " ++ immText imm
  | .bltu rs1 rs2 imm => regText rs1 ++ ", " ++ regText rs2 ++ ", " ++ immText imm
  | .bgeu rs1 rs2 imm => regText rs1 ++ ", " ++ regText rs2 ++ ", " ++ immText imm
  | .lw rd rs1 imm => regText rd ++ ", " ++ immText imm ++ "(" ++ regText rs1 ++ ")"
  | .lbu rd rs1 imm => regText rd ++ ", " ++ immText imm ++ "(" ++ regText rs1 ++ ")"
  | .sw rs2 rs1 imm => regText rs2 ++ ", " ++ immText imm ++ "(" ++ regText rs1 ++ ")"
  | .addi rd rs1 imm => regText rd ++ ", " ++ regText rs1 ++ ", " ++ immText imm
  | .andi rd rs1 imm => regText rd ++ ", " ++ regText rs1 ++ ", " ++ immText imm
  | .add rd rs1 rs2 => regText rd ++ ", " ++ regText rs1 ++ ", " ++ regText rs2
  | .sub rd rs1 rs2 => regText rd ++ ", " ++ regText rs1 ++ ", " ++ regText rs2
  | .xor rd rs1 rs2 => regText rd ++ ", " ++ regText rs1 ++ ", " ++ regText rs2
  | .cAddi4spn rd imm => regText (popular rd) ++ ", " ++ immText imm
  | .cLw rd rs1 uimm => regText (popular rd) ++ ", " ++ fieldText uimm ++ "(" ++ regText (popular rs1) ++ ")"
  | .cSw rs2 rs1 uimm => regText (popular rs2) ++ ", " ++ fieldText uimm ++ "(" ++ regText (popular rs1) ++ ")"
  | .cAddi rd imm => regText rd ++ ", " ++ immText imm
  | .cJal imm => immText imm
  | .cLi rd imm => regText rd ++ ", " ++ immText imm
  | .cAddi16spField0 imm => immText imm
  | .cAddi16spField2 imm => immText imm
  | .cLui rd imm6 => regText rd ++ ", " ++ fieldText imm6
  | .cAndi rd imm => regText (popular rd) ++ ", " ++ immText imm
  | .cJ imm => immText imm
  | .cBeqz rs1 imm => regText (popular rs1) ++ ", " ++ immText imm
  | .cBnez rs1 imm => regText (popular rs1) ++ ", " ++ immText imm
  | .cJr rs1 => regText rs1
  | .cMv rd rs2 => regText rd ++ ", " ++ regText rs2
  | .cAdd rd rs2 => regText rd ++ ", " ++ regText rs2
  | .cSwsp rs2 uimm => regText rs2 ++ ", " ++ fieldText uimm

/-- The assembler text of an instruction: mnemonic in capitals, then its operands (30_encoding.md R119). -/
def asmText (i : Instr) : String := mnemonic i ++ " " ++ operandText i

/-- The pseudo-instructions of 30_encoding.md R120. `li` is the form for any 32-bit constant, `liShort` the form for
−2048 .. 2047; `la` takes the distance from its AUIPC to the symbol. -/
inductive Pseudo where
  | nop
  | cNop
  | mv (rd rs : RegIdx)
  | liShort (rd : RegIdx) (imm : BitVec 12)
  | li (rd : RegIdx) (imm32 : Word)
  | la (rd : RegIdx) (distance : Word)
  | neg (rd rs : RegIdx)
  | j (offset : BitVec 21)
  | jalRa (offset : BitVec 21)
  | bnez (rs : RegIdx) (offset : BitVec 13)
  | bltz (rs : RegIdx) (offset : BitVec 13)
  | bgez (rs : RegIdx) (offset : BitVec 13)
  | bgtz (rs : RegIdx) (offset : BitVec 13)
  | blez (rs : RegIdx) (offset : BitVec 13)
  | bgt (rs rt : RegIdx) (offset : BitVec 13)
  | ble (rs rt : RegIdx) (offset : BitVec 13)
  | bgtu (rs rt : RegIdx) (offset : BitVec 13)
  | bleu (rs rt : RegIdx) (offset : BitVec 13)
  | ret
  deriving DecidableEq, Repr

/-- `(imm32 + 0x800) >> 12`, the upper 20 bits that LUI or AUIPC loads (30_encoding.md R120). -/
def hi20 (v : Word) : BitVec 20 := (v + 0x800#32).extractLsb' 12 20

/-- `imm32[11:0]`, which ADDI adds sign-extended (30_encoding.md R120). -/
def lo12 (v : Word) : BitVec 12 := v.extractLsb' 0 12

/-- The expansion table of 30_encoding.md R120. -/
def Pseudo.expand : Pseudo → List Instr
  | .nop => [.addi 0 0 0#12]
  | .cNop => [.cAddi 0 0#6]
  | .mv rd rs => [.addi rd rs 0#12]
  | .liShort rd imm => [.addi rd 0 imm]
  | .li rd imm32 => [.lui rd (hi20 imm32), .addi rd rd (lo12 imm32)]
  | .la rd distance => [.auipc rd (hi20 distance), .addi rd rd (lo12 distance)]
  | .neg rd rs => [.sub rd 0 rs]
  | .j offset => [.jal 0 offset]
  | .jalRa offset => [.jal 1 offset]
  | .bnez rs offset => [.bne rs 0 offset]
  | .bltz rs offset => [.blt rs 0 offset]
  | .bgez rs offset => [.bge rs 0 offset]
  | .bgtz rs offset => [.blt 0 rs offset]
  | .blez rs offset => [.bge 0 rs offset]
  | .bgt rs rt offset => [.blt rt rs offset]
  | .ble rs rt offset => [.bge rt rs offset]
  | .bgtu rs rt offset => [.bltu rt rs offset]
  | .bleu rs rt offset => [.bgeu rt rs offset]
  | .ret => [.cJr 1]

end Sys2Proof.Machine
end

