-- ==== Sys2Proof/Safety.lean ====
section
/-! DEFINITION. The terms claims are stated in: safe runs, the invariant of the state, what it means that an instruction
writes one register, only moves the pc, stores one word, or halts, and the opcode maps as the spec prints them. -/

namespace Sys2Proof.Machine

/-- The state keeps its form: memory is canonical (log 7) and lies inside MEM_SIZE (10_state.md R31), slot 0 of the register
array, which nothing reads, holds zero (log 11), backing memory fits the address space (log 5; 00_scope.md R8). -/
structure State.Inv (s : State) : Prop where
  memory_canonical : s.mem.wf = true
  memory_in_range : Memory.below s.cfg.memSize s.mem = true
  slot0_zero : s.regs[0] = 0#32
  size_fits : s.cfg.wf = true

/-- `t` comes after `s` in some number of steps. -/
inductive Reaches (s : State) : State → Prop where
  | refl : Reaches s s
  | next {t u : State} (h : Reaches s t) (hs : step t = .next u) : Reaches s u

/-- A safe run: the core never halts (46_dispatch_loop.md R248: only a fatal fault ends a run). -/
def NeverHalts (s : State) : Prop := ∀ t, Reaches s t → t.run = .running

/-- "Halts with `f`, state unchanged" (60_exceptions.md R270): the answer is `s` with the run state `halted(f)`. -/
def HaltsWith (f : HaltReason) (s : State) (r : Result) : Prop := r = .next { s with run := .halted f }

/-- The diagnostic of a write of `v` to register `rd` (10_state.md R22). -/
def x0Diag (rd : RegIdx) (v : Word) : List Event := if rd = 0 ∧ v ≠ 0#32 then [.x0Write v] else []

/-- From `s` to `t`, register `rd` is written with `v` (nothing is, when `rd` is 0), pc becomes `pc'`, the events `ev` and
the write's own diagnostic are appended, and nothing else changes: no other register, no byte of memory, not the run state,
not the parameters. -/
structure WritesRegister (s t : State) (rd : RegIdx) (v pc' : Word) (ev : List Event) : Prop where
  destination : t.readReg rd = if rd = 0 then 0#32 else v
  otherRegisters : ∀ r, r ≠ rd → t.readReg r = s.readReg r
  pc : t.pc = pc'
  memory : ∀ a, t.readByte a = s.readByte a
  run : t.run = s.run
  parameters : t.cfg = s.cfg
  events : t.events = s.events ++ ev ++ x0Diag rd v

/-- From `s` to `t`, pc becomes `pc'`, the events `ev` are appended, and nothing else changes. -/
structure MovesPc (s t : State) (pc' : Word) (ev : List Event) : Prop where
  registers : ∀ r, t.readReg r = s.readReg r
  pc : t.pc = pc'
  memory : ∀ a, t.readByte a = s.readByte a
  run : t.run = s.run
  parameters : t.cfg = s.cfg
  events : t.events = s.events ++ ev

/-- From `s` to `t`, the four bytes at `a` become those of `v`, least significant first, pc becomes `pc'`, and nothing else
changes: no register, no byte outside `a .. a+3`, no event. -/
structure StoresWord (s t : State) (a : Nat) (v pc' : Word) : Prop where
  stored : ∀ k, k < 4 → t.readByte (a + k) = v.extractLsb' (8 * k) 8
  otherBytes : ∀ b, b < a ∨ a + 4 ≤ b → t.readByte b = s.readByte b
  registers : ∀ r, t.readReg r = s.readReg r
  pc : t.pc = pc'
  run : t.run = s.run
  parameters : t.cfg = s.cfg
  events : t.events = s.events

/-- The five branches and the jumps: the instructions that set pc explicitly (10_state.md R25). -/
def IsControl : Instr → Bool
  | .lui _ _ => false
  | .auipc _ _ => false
  | .jal _ _ => true
  | .bne _ _ _ => true
  | .blt _ _ _ => true
  | .bge _ _ _ => true
  | .bltu _ _ _ => true
  | .bgeu _ _ _ => true
  | .lw _ _ _ => false
  | .lbu _ _ _ => false
  | .sw _ _ _ => false
  | .addi _ _ _ => false
  | .andi _ _ _ => false
  | .add _ _ _ => false
  | .sub _ _ _ => false
  | .xor _ _ _ => false
  | .cAddi4spn _ _ => false
  | .cLw _ _ _ => false
  | .cSw _ _ _ => false
  | .cAddi _ _ => false
  | .cJal _ => true
  | .cLi _ _ => false
  | .cAddi16spField0 _ => false
  | .cAddi16spField2 _ => false
  | .cLui _ _ => false
  | .cAndi _ _ => false
  | .cJ _ => true
  | .cBeqz _ _ => true
  | .cBnez _ _ => true
  | .cJr _ => true
  | .cMv _ _ => false
  | .cAdd _ _ => false
  | .cSwsp _ _ => false

/-- The instructions that store to backing memory (20_memory.md R62). -/
def IsStore (i : Instr) : Prop :=
  (∃ rs2 rs1 imm, i = .sw rs2 rs1 imm) ∨ (∃ rs2 rs1 uimm, i = .cSw rs2 rs1 uimm) ∨ (∃ rs2 uimm, i = .cSwsp rs2 uimm)

/-! ## The opcode maps (30_encoding.md R98, R110; opcode_table.json): mnemonic, match, mask -/

/-- The sixteen rows of the standard format: a word `w` is the row's instruction when `(w & mask) = match` (R98). -/
def standardRows : List (String × BitVec 32 × BitVec 32) :=
  [("LUI", 0x00000037#32, 0x0000007F#32),
   ("AUIPC", 0x00000017#32, 0x0000007F#32),
   ("JAL", 0x0000006F#32, 0x0000007F#32),
   ("BNE", 0x00001063#32, 0x0000707F#32),
   ("BLT", 0x00004063#32, 0x0000707F#32),
   ("BGE", 0x00005063#32, 0x0000707F#32),
   ("BLTU", 0x00006063#32, 0x0000707F#32),
   ("BGEU", 0x00007063#32, 0x0000707F#32)] ++
  [("LW", 0x00002003#32, 0x0000707F#32),
   ("LBU", 0x00004003#32, 0x0000707F#32),
   ("SW", 0x00002023#32, 0x0000707F#32),
   ("ADDI", 0x00000013#32, 0x0000707F#32),
   ("ANDI", 0x00007013#32, 0x0000707F#32),
   ("ADD", 0x00000033#32, 0xFE00707F#32),
   ("SUB", 0x40000033#32, 0xFE00707F#32),
   ("XOR", 0x00004033#32, 0xFE00707F#32)]

/-- The seventeen rows of the compressed format; `compressedGuard` gives the guards (R110). -/
def compressedRows : List (String × BitVec 16 × BitVec 16) :=
  [("C.ADDI4SPN", 0x0000#16, 0xE003#16),
   ("C.LW", 0x4000#16, 0xE003#16),
   ("C.SW", 0xC000#16, 0xE003#16),
   ("C.ADDI", 0x0001#16, 0xE003#16),
   ("C.JAL", 0x2001#16, 0xE003#16),
   ("C.LI", 0x4001#16, 0xE003#16),
   ("C.ADDI16SP", 0x6001#16, 0xEF83#16),
   ("C.ADDI16SP", 0x6101#16, 0xEF83#16),
   ("C.LUI", 0x6001#16, 0xE003#16)] ++
  [("C.ANDI", 0x8801#16, 0xEC03#16),
   ("C.J", 0xA001#16, 0xE003#16),
   ("C.BEQZ", 0xC001#16, 0xE003#16),
   ("C.BNEZ", 0xE001#16, 0xE003#16),
   ("C.JR", 0x8002#16, 0xF07F#16),
   ("C.MV", 0x8002#16, 0xF003#16),
   ("C.ADD", 0x9002#16, 0xF003#16),
   ("C.SWSP", 0xC002#16, 0xE003#16)]

/-- The guard column of R110, for the rows whose mask does not hold it. -/
def compressedGuard (name : String) (u : BitVec 16) : Prop :=
  (name = "C.ADDI4SPN" → u ≠ 0x0000#16) ∧
  (name = "C.LUI" → u.extractLsb' 7 5 ≠ 0#5 ∧ u.extractLsb' 7 5 ≠ 2#5) ∧
  (name = "C.MV" → u.extractLsb' 7 5 ≠ 0#5 ∧ u.extractLsb' 2 5 ≠ 0#5) ∧
  (name = "C.ADD" → u.extractLsb' 7 5 ≠ 0#5 ∧ u.extractLsb' 2 5 ≠ 0#5)

end Sys2Proof.Machine
end

