-- ==== Sys2Proof/Certificates/Slice0/Obligations.lean ====
section
/-! DEFINITION. The statements for the provers: what the rules of spec/ say the state, the load-store unit, every
instruction and the step do. -/

open Sys2Proof Sys2Proof.Machine

/-! ## Reset, registers, memory -/

/-- After `Reset(IMAGE)` the core runs, pc and every register are 0, memory holds the image, and no event was emitted (R300,
R34). That bytes above the image read 0 is no fact of the source: up to MEM_SIZE it is the spec's own decision D2, and at
MEM_SIZE and above, where no byte exists, it is the model's choice of what an unlisted byte reads as (log 7, DESIGN CHOICE). -/
def Obligations.ResetLoadsTheImage : Prop :=
  ∀ (image : List Byte) (c : Config), image.length ≤ c.memSize →
    let s := State.resetWith image c
    s.run = .running ∧ s.pc = 0#32 ∧ (∀ r, s.readReg r = 0#32) ∧
      (∀ k (h : k < image.length), s.readByte k = image[k]) ∧
      (∀ k, image.length ≤ k → s.readByte k = 0#8) ∧ s.events = [] ∧ s.cfg = c

/-- `State.reset` is `Reset` of the empty image (log 6) with the parameters of log 3 and log 4, and reset meets the invariant
whatever image and (well-formed) parameters are chosen. All of this is the model's choice: the invariant is made of the
canonical form of memory (log 7), slot 0 of the register array (log 11) and the bound on MEM_SIZE (log 5), and an image longer
than MEM_SIZE is cut (log 8). -/
def Obligations.ResetMeetsTheInvariant : Prop :=
  State.reset = State.resetWith [] ⟨65536, .fault⟩ ∧ State.reset.Inv ∧
    ∀ (image : List Byte) (c : Config), c.wf = true → (State.resetWith image c).Inv

/-- R22: a register write is read back, register 0 stays zero, only a nonzero write to register 0 is reported, and nothing
else changes. -/
def Obligations.RegisterWriteLaw : Prop :=
  ∀ (s : State) (i : RegIdx) (v : Word),
    let t := s.writeReg i v
    (i ≠ 0 → t.readReg i = v) ∧ t.readReg 0 = 0#32 ∧ (∀ r, r ≠ i → t.readReg r = s.readReg r) ∧
      (i = 0 ∧ v ≠ 0#32 → t = { s with events := s.events ++ [.x0Write v] }) ∧
      (i = 0 ∧ v = 0#32 → t = s) ∧ (i ≠ 0 → t = { s with regs := t.regs })

/-- R51: an address is I/O when bit 31 or bit 30 is set, that is from 0x4000_0000 up. -/
def Obligations.IoRegionIsTheTopThreeQuarters : Prop :=
  ∀ a : Word, (IsIo a ↔ a.getLsbD 31 = true ∨ a.getLsbD 30 = true) ∧ (IsIo a ↔ 0x40000000 ≤ a.toNat)

/-- R52, R53: raw reads are little-endian sums of bytes. -/
def Obligations.MemReadIsLittleEndian : Prop :=
  ∀ (s : State) (a : Nat),
    (s.memRead16 a).toNat = (s.readByte a).toNat + 256 * (s.readByte (a + 1)).toNat ∧
    (s.memRead32 a).toNat =
      (s.readByte a).toNat + 256 * (s.readByte (a + 1)).toNat + 256 ^ 2 * (s.readByte (a + 2)).toNat +
        256 ^ 3 * (s.readByte (a + 3)).toNat

/-- `MemWrite(a, n, v)` stores byte `k` of `v` at `a + k`, and no other byte of memory changes (R54). That memory stays
canonical is about the model's own list form (log 7, DESIGN CHOICE). -/
def Obligations.MemWriteStoresItsBytes : Prop :=
  ∀ (s : State) (a n : Nat) (v : Word), s.mem.wf = true → n ≤ 4 →
    let t := s.memWrite a v n
    (∀ k, k < n → t.readByte (a + k) = v.extractLsb' (8 * k) 8) ∧
      (∀ b, b < a ∨ a + n ≤ b → t.readByte b = s.readByte b) ∧ t = { s with mem := t.mem } ∧ t.mem.wf = true

/-- Two canonical memories with the same bytes are the same data (log 7: the canonical form is the model's). -/
def Obligations.CanonicalMemoryIsDeterminedByItsBytes : Prop :=
  ∀ m m' : Memory, m.wf = true → m'.wf = true → (∀ a, m.read a = m'.read a) → m = m'

/-- R71: after a word is stored at a word-aligned address, byte loads see its bytes and parcel fetches its halves. The byte
load and the word load are routed, so they are stated below 0x4000_0000. -/
def Obligations.MixedWidthAccessesSeeTheStoredWord : Prop :=
  ∀ (s : State) (w v : Word), s.mem.wf = true → w.toNat % 4 = 0 → w.toNat + 4 ≤ s.cfg.memSize →
    let t := s.memWrite32 w.toNat v
    (w.toNat < 0x40000000 →
      (∀ k, k < 4 → t.loadByte (w + BitVec.ofNat 32 k) = .ok (v.extractLsb' (8 * k) 8, t)) ∧ t.loadWord w = .ok (v, t)) ∧
    t.fetch16 w = .ok (v.extractLsb' 0 16) ∧ t.fetch16 (w + 2#32) = .ok (v.extractLsb' 16 16)

/-! ## The access primitives -/

/-- R55: a parcel fetch reads backing memory directly or faults; it is never routed. -/
def Obligations.Fetch16ReadsMemoryOrFaults : Prop :=
  ∀ (s : State) (a : Word),
    (a.toNat + 2 ≤ s.cfg.memSize → s.fetch16 a = .ok (s.memRead16 a.toNat)) ∧
    (s.cfg.memSize < a.toNat + 2 → s.fetch16 a = .error (.fetchOutOfRange a))

/-- R56, R57: a load by region. I/O gives 0 and a diagnostic; memory gives the containing aligned word, or the byte at exactly
the requested address; elsewhere it faults. -/
def Obligations.LoadsByRegion : Prop :=
  (∀ (s : State) (a : Word),
    (0x40000000 ≤ a.toNat → s.loadWord a = .ok (0#32, s.emit (.ioLoad a))) ∧
    (a.toNat < 0x40000000 → 4 * (a.toNat / 4) + 4 ≤ s.cfg.memSize →
      s.loadWord a = .ok (s.memRead32 (4 * (a.toNat / 4)), s)) ∧
    (a.toNat < 0x40000000 → s.cfg.memSize < 4 * (a.toNat / 4) + 4 → s.loadWord a = .error (.loadOutOfRange a))) ∧
  (∀ (s : State) (a : Word),
    (0x40000000 ≤ a.toNat → s.loadByte a = .ok (0#8, s.emit (.ioLoad a))) ∧
    (a.toNat < 0x40000000 → a.toNat + 1 ≤ s.cfg.memSize → s.loadByte a = .ok (s.readByte a.toNat, s)) ∧
    (a.toNat < 0x40000000 → s.cfg.memSize < a.toNat + 1 → s.loadByte a = .error (.loadOutOfRange a)))

/-- R58, R72: a word store: I/O is dropped with a diagnostic, then the bound on the requested address, then the masked word
in memory or a fault. -/
def Obligations.StoreWordByRegion : Prop :=
  ∀ (s : State) (a v : Word),
    (0x40000000 ≤ a.toNat → s.storeWord a v = .ok (s.emit (.ioStore a v))) ∧
    (65532 < a.toNat → a.toNat < 0x40000000 → s.storeWord a v = .error (.storeBound a)) ∧
    (a.toNat ≤ 65532 → 4 * (a.toNat / 4) + 4 ≤ s.cfg.memSize →
      s.storeWord a v = .ok (s.memWrite32 (4 * (a.toNat / 4)) v)) ∧
    (a.toNat ≤ 65532 → s.cfg.memSize < 4 * (a.toNat / 4) + 4 → s.storeWord a v = .error (.storeOutOfRange a))

/-- R59: the direct store: no routing, no bound; a misaligned address follows SWSP_MISALIGN. -/
def Obligations.StoreDirectByMode : Prop :=
  ∀ (s : State) (a v : Word),
    (a.toNat % 4 = 0 ∨ s.cfg.swspMisalign = .exact → a.toNat + 4 ≤ s.cfg.memSize →
      s.storeDirect a v = .ok (s.memWrite32 a.toNat v)) ∧
    (a.toNat % 4 = 0 ∨ s.cfg.swspMisalign = .exact → s.cfg.memSize < a.toNat + 4 →
      s.storeDirect a v = .error (.storeOutOfRange a)) ∧
    (a.toNat % 4 ≠ 0 → s.cfg.swspMisalign = .fault → s.storeDirect a v = .error (.swspMisaligned a)) ∧
    (a.toNat % 4 ≠ 0 → s.cfg.swspMisalign = .mask → 4 * (a.toNat / 4) + 4 ≤ s.cfg.memSize →
      s.storeDirect a v = .ok (s.memWrite32 (4 * (a.toNat / 4)) v)) ∧
    (a.toNat % 4 ≠ 0 → s.cfg.swspMisalign = .mask → s.cfg.memSize < 4 * (a.toNat / 4) + 4 →
      s.storeDirect a v = .error (.storeOutOfRange a))

/-- R58, R67: a store to backing memory is seen by a later load of any requested address in the same aligned word. -/
def Obligations.StoreIsVisibleToALoadOfTheSameWord : Prop :=
  ∀ (s t : State) (a b v : Word), s.mem.wf = true → a.toNat < 0x40000000 → s.storeWord a v = .ok t →
    a.toNat / 4 = b.toNat / 4 → t.loadWord b = .ok (v, t)

/-- R160, R210, R140: an effective address is the base plus the signed (standard) or unsigned (compressed) offset, modulo
2^32. -/
def Obligations.EffectiveAddressesWrap : Prop :=
  (∀ (rs1 : RegIdx) (imm : BitVec 12) (s : State),
    ((eaStandard rs1 imm s).toNat : Int) = ((s.readReg rs1).toNat + imm.toInt) % 2 ^ 32) ∧
  (∀ (base : RegIdx) (uimm : BitVec 7) (s : State),
    (eaCompressed base uimm s).toNat = ((s.readReg base).toNat + uimm.toNat) % 2 ^ 32) ∧
  (∀ (base : RegIdx) (uimm : BitVec 8) (s : State),
    (eaCompressed base uimm s).toNat = ((s.readReg base).toNat + uimm.toNat) % 2 ^ 32)

/-! ## Standard-format instructions: encoding, result, frame -/

/-- R141, R142. -/
def Obligations.LuiAndAuipcWriteTheUpperImmediate : Prop :=
  (∀ w : BitVec 32, w &&& 0x0000007F#32 = 0x00000037#32 →
    decodeStandard w = some (.lui (w.extractLsb' 7 5).toFin (w.extractLsb' 12 20))) ∧
  (∀ w : BitVec 32, w &&& 0x0000007F#32 = 0x00000017#32 →
    decodeStandard w = some (.auipc (w.extractLsb' 7 5).toFin (w.extractLsb' 12 20))) ∧
  (∀ rd imm20 s, ∃ t, exec (.lui rd imm20) s = .next t ∧
    WritesRegister s t rd (BitVec.ofNat 32 (imm20.toNat * 4096)) (s.pc + 4#32) []) ∧
  (∀ rd imm20 s, ∃ t, exec (.auipc rd imm20) s = .next t ∧
    WritesRegister s t rd (BitVec.ofNat 32 (s.pc.toNat + imm20.toNat * 4096)) (s.pc + 4#32) [])

/-- R143, R144. -/
def Obligations.AddiAndAndiResult : Prop :=
  (∀ w : BitVec 32, w &&& 0x0000707F#32 = 0x00000013#32 →
    decodeStandard w = some (.addi (w.extractLsb' 7 5).toFin (w.extractLsb' 15 5).toFin (w.extractLsb' 20 12))) ∧
  (∀ w : BitVec 32, w &&& 0x0000707F#32 = 0x00007013#32 →
    decodeStandard w = some (.andi (w.extractLsb' 7 5).toFin (w.extractLsb' 15 5).toFin (w.extractLsb' 20 12))) ∧
  (∀ rd rs1 imm s, ∃ t, exec (.addi rd rs1 imm) s = .next t ∧
    WritesRegister s t rd (BitVec.ofInt 32 ((s.readReg rs1).toNat + imm.toInt)) (s.pc + 4#32) []) ∧
  (∀ rd rs1 imm s, ∃ t, exec (.andi rd rs1 imm) s = .next t ∧
    WritesRegister s t rd (s.readReg rs1 &&& imm.signExtend 32) (s.pc + 4#32) [])

/-- R145, R146, R147; a word of these shapes with another funct7 is invalid (R99). -/
def Obligations.AddSubXorResult : Prop :=
  (∀ w : BitVec 32, w &&& 0xFE00707F#32 = 0x00000033#32 →
    decodeStandard w =
      some (.add (w.extractLsb' 7 5).toFin (w.extractLsb' 15 5).toFin (w.extractLsb' 20 5).toFin)) ∧
  (∀ w : BitVec 32, w &&& 0xFE00707F#32 = 0x40000033#32 →
    decodeStandard w =
      some (.sub (w.extractLsb' 7 5).toFin (w.extractLsb' 15 5).toFin (w.extractLsb' 20 5).toFin)) ∧
  (∀ w : BitVec 32, w &&& 0xFE00707F#32 = 0x00004033#32 →
    decodeStandard w =
      some (.xor (w.extractLsb' 7 5).toFin (w.extractLsb' 15 5).toFin (w.extractLsb' 20 5).toFin)) ∧
  (∀ w : BitVec 32, w &&& 0x0000707F#32 = 0x00000033#32 → w.extractLsb' 25 7 ≠ 0x00#7 → w.extractLsb' 25 7 ≠ 0x20#7 →
    decodeStandard w = none) ∧
  (∀ w : BitVec 32, w &&& 0x0000707F#32 = 0x00004033#32 → w.extractLsb' 25 7 ≠ 0x00#7 → decodeStandard w = none) ∧
  (∀ rd rs1 rs2 s, ∃ t, exec (.add rd rs1 rs2) s = .next t ∧
    WritesRegister s t rd (BitVec.ofNat 32 ((s.readReg rs1).toNat + (s.readReg rs2).toNat)) (s.pc + 4#32) []) ∧
  (∀ rd rs1 rs2 s, ∃ t, exec (.sub rd rs1 rs2) s = .next t ∧
    WritesRegister s t rd (BitVec.ofInt 32 ((s.readReg rs1).toNat - (s.readReg rs2).toNat : Int)) (s.pc + 4#32) []) ∧
  (∀ rd rs1 rs2 s, ∃ t, exec (.xor rd rs1 rs2) s = .next t ∧
    WritesRegister s t rd (s.readReg rs1 ^^^ s.readReg rs2) (s.pc + 4#32) [])

/-- R161: the byte at exactly `ea`, zero-extended; 0 and a diagnostic in the I/O region; a fault elsewhere. -/
def Obligations.LbuByRegion : Prop :=
  (∀ w : BitVec 32, w &&& 0x0000707F#32 = 0x00004003#32 →
    decodeStandard w = some (.lbu (w.extractLsb' 7 5).toFin (w.extractLsb' 15 5).toFin (w.extractLsb' 20 12))) ∧
  ∀ rd rs1 imm s,
    let ea := eaStandard rs1 imm s
    (0x40000000 ≤ ea.toNat → ∃ t, exec (.lbu rd rs1 imm) s = .next t ∧
      WritesRegister s t rd 0#32 (s.pc + 4#32) [.ioLoad ea]) ∧
    (ea.toNat < 0x40000000 → ea.toNat < s.cfg.memSize → ∃ t, exec (.lbu rd rs1 imm) s = .next t ∧
      WritesRegister s t rd (BitVec.ofNat 32 (s.readByte ea.toNat).toNat) (s.pc + 4#32) []) ∧
    (ea.toNat < 0x40000000 → s.cfg.memSize ≤ ea.toNat →
      HaltsWith (.loadOutOfRange ea) s (exec (.lbu rd rs1 imm) s))

/-- R162: the aligned word containing `ea`; 0 and a diagnostic in the I/O region; a fault elsewhere. -/
def Obligations.LwByRegion : Prop :=
  (∀ w : BitVec 32, w &&& 0x0000707F#32 = 0x00002003#32 →
    decodeStandard w = some (.lw (w.extractLsb' 7 5).toFin (w.extractLsb' 15 5).toFin (w.extractLsb' 20 12))) ∧
  ∀ rd rs1 imm s,
    let ea := eaStandard rs1 imm s
    (0x40000000 ≤ ea.toNat → ∃ t, exec (.lw rd rs1 imm) s = .next t ∧
      WritesRegister s t rd 0#32 (s.pc + 4#32) [.ioLoad ea]) ∧
    (ea.toNat < 0x40000000 → 4 * (ea.toNat / 4) + 4 ≤ s.cfg.memSize → ∃ t, exec (.lw rd rs1 imm) s = .next t ∧
      WritesRegister s t rd (s.memRead32 (4 * (ea.toNat / 4))) (s.pc + 4#32) []) ∧
    (ea.toNat < 0x40000000 → s.cfg.memSize < 4 * (ea.toNat / 4) + 4 →
      HaltsWith (.loadOutOfRange ea) s (exec (.lw rd rs1 imm) s))

/-- R163: the aligned word containing `ea` is stored; an I/O store is dropped with a diagnostic; above 65532, and outside
memory, it halts. -/
def Obligations.SwByRegion : Prop :=
  (∀ w : BitVec 32, w &&& 0x0000707F#32 = 0x00002023#32 →
    decodeStandard w = some (.sw (w.extractLsb' 20 5).toFin (w.extractLsb' 15 5).toFin
      (w.extractLsb' 25 7 ++ w.extractLsb' 7 5))) ∧
  ∀ rs2 rs1 imm s, s.mem.wf = true →
    let ea := eaStandard rs1 imm s
    (0x40000000 ≤ ea.toNat → ∃ t, exec (.sw rs2 rs1 imm) s = .next t ∧
      MovesPc s t (s.pc + 4#32) [.ioStore ea (s.readReg rs2)]) ∧
    (65532 < ea.toNat → ea.toNat < 0x40000000 → HaltsWith (.storeBound ea) s (exec (.sw rs2 rs1 imm) s)) ∧
    (ea.toNat ≤ 65532 → 4 * (ea.toNat / 4) + 4 ≤ s.cfg.memSize → ∃ t, exec (.sw rs2 rs1 imm) s = .next t ∧
      StoresWord s t (4 * (ea.toNat / 4)) (s.readReg rs2) (s.pc + 4#32)) ∧
    (ea.toNat ≤ 65532 → s.cfg.memSize < 4 * (ea.toNat / 4) + 4 →
      HaltsWith (.storeOutOfRange ea) s (exec (.sw rs2 rs1 imm) s))

/-- R170 to R175: each branch compares its two registers as its mnemonic says and moves only the pc. -/
def Obligations.BranchesCompareAndMoveOnlyThePc : Prop :=
  (∀ w : BitVec 32,
    let rs1 : RegIdx := (w.extractLsb' 15 5).toFin
    let rs2 : RegIdx := (w.extractLsb' 20 5).toFin
    let imm : BitVec 13 := w.extractLsb' 31 1 ++ w.extractLsb' 7 1 ++ w.extractLsb' 25 6 ++ w.extractLsb' 8 4 ++ 0#1
    (w &&& 0x0000707F#32 = 0x00001063#32 → decodeStandard w = some (.bne rs1 rs2 imm)) ∧
    (w &&& 0x0000707F#32 = 0x00004063#32 → decodeStandard w = some (.blt rs1 rs2 imm)) ∧
    (w &&& 0x0000707F#32 = 0x00005063#32 → decodeStandard w = some (.bge rs1 rs2 imm)) ∧
    (w &&& 0x0000707F#32 = 0x00006063#32 → decodeStandard w = some (.bltu rs1 rs2 imm)) ∧
    (w &&& 0x0000707F#32 = 0x00007063#32 → decodeStandard w = some (.bgeu rs1 rs2 imm))) ∧
  ∀ rs1 rs2 imm s,
    let a := s.readReg rs1
    let b := s.readReg rs2
    let target : Word := BitVec.ofInt 32 (s.pc.toNat + imm.toInt)
    (∃ t, exec (.bne rs1 rs2 imm) s = .next t ∧ MovesPc s t (if a ≠ b then target else s.pc + 4#32) []) ∧
    (∃ t, exec (.blt rs1 rs2 imm) s = .next t ∧ MovesPc s t (if a.toInt < b.toInt then target else s.pc + 4#32) []) ∧
    (∃ t, exec (.bge rs1 rs2 imm) s = .next t ∧ MovesPc s t (if a.toInt ≥ b.toInt then target else s.pc + 4#32) []) ∧
    (∃ t, exec (.bltu rs1 rs2 imm) s = .next t ∧ MovesPc s t (if a.toNat < b.toNat then target else s.pc + 4#32) []) ∧
    (∃ t, exec (.bgeu rs1 rs2 imm) s = .next t ∧ MovesPc s t (if a.toNat ≥ b.toNat then target else s.pc + 4#32) [])

/-- R176: link `pc + 4`, then `pc + imm_j`, both from the address of the JAL. -/
def Obligations.JalLinksAndJumps : Prop :=
  (∀ w : BitVec 32, w &&& 0x0000007F#32 = 0x0000006F#32 →
    decodeStandard w = some (.jal (w.extractLsb' 7 5).toFin
      (w.extractLsb' 31 1 ++ w.extractLsb' 12 8 ++ w.extractLsb' 20 1 ++ w.extractLsb' 21 10 ++ 0#1))) ∧
  ∀ rd imm s, ∃ t, exec (.jal rd imm) s = .next t ∧
    WritesRegister s t rd (s.pc + 4#32) (BitVec.ofInt 32 (s.pc.toNat + imm.toInt)) []

/-! ## Compressed-format instructions: encoding, result, frame -/

/-- R191: the old destination x[8 + rd'] (R101), x2 and the sign-extended immediate are added; the all-zero unit is invalid
(R113). -/
def Obligations.CAddi4spnResult : Prop :=
  (∀ u : BitVec 16, u &&& 0xE003#16 = 0x0000#16 → u ≠ 0x0000#16 →
    decodeCompressed u = some (.cAddi4spn (u.extractLsb' 2 3).toFin
      (u.extractLsb' 7 4 ++ u.extractLsb' 11 2 ++ u.extractLsb' 5 1 ++ u.extractLsb' 6 1 ++ 0#2))) ∧
  decodeCompressed 0x0000#16 = none ∧
  (∀ f : PopIdx, (popular f).val = 8 + f.val) ∧
  ∀ rd imm s, ∃ t, exec (.cAddi4spn rd imm) s = .next t ∧
    WritesRegister s t (popular rd)
      (BitVec.ofInt 32 ((s.readReg (popular rd)).toNat + (s.readReg 2).toNat + imm.toInt)) (s.pc + 2#32) []

/-- R192, R193. -/
def Obligations.CAddiAndCLiResult : Prop :=
  (∀ u : BitVec 16, u &&& 0xE003#16 = 0x0001#16 →
    decodeCompressed u = some (.cAddi (u.extractLsb' 7 5).toFin (u.extractLsb' 12 1 ++ u.extractLsb' 2 5))) ∧
  (∀ u : BitVec 16, u &&& 0xE003#16 = 0x4001#16 →
    decodeCompressed u = some (.cLi (u.extractLsb' 7 5).toFin (u.extractLsb' 12 1 ++ u.extractLsb' 2 5))) ∧
  (∀ rd imm s, ∃ t, exec (.cAddi rd imm) s = .next t ∧
    WritesRegister s t rd (BitVec.ofInt 32 ((s.readReg rd).toNat + imm.toInt)) (s.pc + 2#32) []) ∧
  (∀ rd imm s, ∃ t, exec (.cLi rd imm) s = .next t ∧
    WritesRegister s t rd (BitVec.ofInt 32 imm.toInt) (s.pc + 2#32) [])

/-- R194: both forms adjust x2, whatever the field `unit[11:7]`. -/
def Obligations.CAddi16spAdjustsX2 : Prop :=
  (∀ u : BitVec 16,
    let imm : BitVec 10 := u.extractLsb' 12 1 ++ u.extractLsb' 3 2 ++ u.extractLsb' 5 1 ++ u.extractLsb' 2 1 ++
      u.extractLsb' 6 1 ++ 0#4
    (u &&& 0xEF83#16 = 0x6001#16 → decodeCompressed u = some (.cAddi16spField0 imm)) ∧
    (u &&& 0xEF83#16 = 0x6101#16 → decodeCompressed u = some (.cAddi16spField2 imm))) ∧
  (∀ imm s, ∃ t, exec (.cAddi16spField0 imm) s = .next t ∧
    WritesRegister s t 2 (BitVec.ofInt 32 ((s.readReg 2).toNat + imm.toInt)) (s.pc + 2#32) []) ∧
  (∀ imm s, ∃ t, exec (.cAddi16spField2 imm) s = .next t ∧
    WritesRegister s t 2 (BitVec.ofInt 32 ((s.readReg 2).toNat + imm.toInt)) (s.pc + 2#32) [])

/-- R195: the six bits at 17:12, sign-extended from bit 17; the fields 0 and 2 are not C.LUI. -/
def Obligations.CLuiWritesTheUpperImmediate : Prop :=
  (∀ u : BitVec 16, u &&& 0xE003#16 = 0x6001#16 → u.extractLsb' 7 5 ≠ 0#5 → u.extractLsb' 7 5 ≠ 2#5 →
    decodeCompressed u = some (.cLui (u.extractLsb' 7 5).toFin (u.extractLsb' 12 1 ++ u.extractLsb' 2 5))) ∧
  ∀ rd imm6 s, ∃ t, exec (.cLui rd imm6) s = .next t ∧
    WritesRegister s t rd (BitVec.ofInt 32 (imm6.toInt * 4096)) (s.pc + 2#32) []

/-- R196: the register is x[8 + rd'] (R101); the sub-field `unit[11:10]` must be 2, and any other value is invalid. -/
def Obligations.CAndiResult : Prop :=
  (∀ u : BitVec 16, u &&& 0xEC03#16 = 0x8801#16 →
    decodeCompressed u = some (.cAndi (u.extractLsb' 7 3).toFin (u.extractLsb' 12 1 ++ u.extractLsb' 2 5))) ∧
  (∀ u : BitVec 16, u &&& 0xE003#16 = 0x8001#16 → u.extractLsb' 10 2 ≠ 2#2 → decodeCompressed u = none) ∧
  (∀ f : PopIdx, (popular f).val = 8 + f.val) ∧
  ∀ rd imm s, ∃ t, exec (.cAndi rd imm) s = .next t ∧
    WritesRegister s t (popular rd) (s.readReg (popular rd) &&& imm.signExtend 32) (s.pc + 2#32) []

/-- R197, R198: both fields nonzero; C.MV with a zero destination and C.ADD with a zero field are invalid. -/
def Obligations.CMvAndCAddResult : Prop :=
  (∀ u : BitVec 16,
    let r : RegIdx := (u.extractLsb' 7 5).toFin
    let r2 : RegIdx := (u.extractLsb' 2 5).toFin
    (u &&& 0xF003#16 = 0x8002#16 → r ≠ 0 → r2 ≠ 0 → decodeCompressed u = some (.cMv r r2)) ∧
    (u &&& 0xF003#16 = 0x8002#16 → r = 0 → r2 ≠ 0 → decodeCompressed u = none) ∧
    (u &&& 0xF003#16 = 0x9002#16 → r ≠ 0 → r2 ≠ 0 → decodeCompressed u = some (.cAdd r r2)) ∧
    (u &&& 0xF003#16 = 0x9002#16 → r = 0 ∨ r2 = 0 → decodeCompressed u = none)) ∧
  (∀ rd rs2 s, ∃ t, exec (.cMv rd rs2) s = .next t ∧ WritesRegister s t rd (s.readReg rs2) (s.pc + 2#32) []) ∧
  (∀ rd rs2 s, ∃ t, exec (.cAdd rd rs2) s = .next t ∧
    WritesRegister s t rd (BitVec.ofNat 32 ((s.readReg rd).toNat + (s.readReg rs2).toNat)) (s.pc + 2#32) [])

/-- R211: as LW, with popular registers, x[8 + f] (R101), and an unsigned scaled offset. -/
def Obligations.CLwByRegion : Prop :=
  (∀ u : BitVec 16, u &&& 0xE003#16 = 0x4000#16 →
    decodeCompressed u = some (.cLw (u.extractLsb' 2 3).toFin (u.extractLsb' 7 3).toFin
      (u.extractLsb' 5 1 ++ u.extractLsb' 10 3 ++ u.extractLsb' 6 1 ++ 0#2))) ∧
  (∀ f : PopIdx, (popular f).val = 8 + f.val) ∧
  ∀ rd rs1 uimm s,
    let ea := eaCompressed (popular rs1) uimm s
    (0x40000000 ≤ ea.toNat → ∃ t, exec (.cLw rd rs1 uimm) s = .next t ∧
      WritesRegister s t (popular rd) 0#32 (s.pc + 2#32) [.ioLoad ea]) ∧
    (ea.toNat < 0x40000000 → 4 * (ea.toNat / 4) + 4 ≤ s.cfg.memSize → ∃ t, exec (.cLw rd rs1 uimm) s = .next t ∧
      WritesRegister s t (popular rd) (s.memRead32 (4 * (ea.toNat / 4))) (s.pc + 2#32) []) ∧
    (ea.toNat < 0x40000000 → s.cfg.memSize < 4 * (ea.toNat / 4) + 4 →
      HaltsWith (.loadOutOfRange ea) s (exec (.cLw rd rs1 uimm) s))

/-- R212: as SW, with popular registers, x[8 + f] (R101), and an unsigned scaled offset. -/
def Obligations.CSwByRegion : Prop :=
  (∀ u : BitVec 16, u &&& 0xE003#16 = 0xC000#16 →
    decodeCompressed u = some (.cSw (u.extractLsb' 2 3).toFin (u.extractLsb' 7 3).toFin
      (u.extractLsb' 5 1 ++ u.extractLsb' 10 3 ++ u.extractLsb' 6 1 ++ 0#2))) ∧
  (∀ f : PopIdx, (popular f).val = 8 + f.val) ∧
  ∀ rs2 rs1 uimm s, s.mem.wf = true →
    let ea := eaCompressed (popular rs1) uimm s
    (0x40000000 ≤ ea.toNat → ∃ t, exec (.cSw rs2 rs1 uimm) s = .next t ∧
      MovesPc s t (s.pc + 2#32) [.ioStore ea (s.readReg (popular rs2))]) ∧
    (65532 < ea.toNat → ea.toNat < 0x40000000 → HaltsWith (.storeBound ea) s (exec (.cSw rs2 rs1 uimm) s)) ∧
    (ea.toNat ≤ 65532 → 4 * (ea.toNat / 4) + 4 ≤ s.cfg.memSize → ∃ t, exec (.cSw rs2 rs1 uimm) s = .next t ∧
      StoresWord s t (4 * (ea.toNat / 4)) (s.readReg (popular rs2)) (s.pc + 2#32)) ∧
    (ea.toNat ≤ 65532 → s.cfg.memSize < 4 * (ea.toNat / 4) + 4 →
      HaltsWith (.storeOutOfRange ea) s (exec (.cSw rs2 rs1 uimm) s))

/-- R213: C.SWSP stores to backing memory directly, with no routing and no bound; a misaligned address follows
SWSP_MISALIGN. -/
def Obligations.CSwspStoresDirectly : Prop :=
  (∀ u : BitVec 16, u &&& 0xE003#16 = 0xC002#16 →
    decodeCompressed u = some (.cSwsp (u.extractLsb' 2 5).toFin (u.extractLsb' 7 2 ++ u.extractLsb' 9 4 ++ 0#2))) ∧
  ∀ rs2 uimm s, s.mem.wf = true →
    let ea := eaCompressed 2 uimm s
    (ea.toNat % 4 = 0 ∨ s.cfg.swspMisalign = .exact → ea.toNat + 4 ≤ s.cfg.memSize →
      ∃ t, exec (.cSwsp rs2 uimm) s = .next t ∧ StoresWord s t ea.toNat (s.readReg rs2) (s.pc + 2#32)) ∧
    (ea.toNat % 4 = 0 ∨ s.cfg.swspMisalign = .exact → s.cfg.memSize < ea.toNat + 4 →
      HaltsWith (.storeOutOfRange ea) s (exec (.cSwsp rs2 uimm) s)) ∧
    (ea.toNat % 4 ≠ 0 → s.cfg.swspMisalign = .fault → HaltsWith (.swspMisaligned ea) s (exec (.cSwsp rs2 uimm) s)) ∧
    (ea.toNat % 4 ≠ 0 → s.cfg.swspMisalign = .mask → 4 * (ea.toNat / 4) + 4 ≤ s.cfg.memSize →
      ∃ t, exec (.cSwsp rs2 uimm) s = .next t ∧
        StoresWord s t (4 * (ea.toNat / 4)) (s.readReg rs2) (s.pc + 2#32)) ∧
    (ea.toNat % 4 ≠ 0 → s.cfg.swspMisalign = .mask → s.cfg.memSize < 4 * (ea.toNat / 4) + 4 →
      HaltsWith (.storeOutOfRange ea) s (exec (.cSwsp rs2 uimm) s))

/-- R221, R222. -/
def Obligations.CJalAndCJJump : Prop :=
  (∀ u : BitVec 16,
    let imm : BitVec 12 := u.extractLsb' 12 1 ++ u.extractLsb' 8 1 ++ u.extractLsb' 9 2 ++ u.extractLsb' 6 1 ++
      u.extractLsb' 7 1 ++ u.extractLsb' 2 1 ++ u.extractLsb' 11 1 ++ u.extractLsb' 3 3 ++ 0#1
    (u &&& 0xE003#16 = 0x2001#16 → decodeCompressed u = some (.cJal imm)) ∧
    (u &&& 0xE003#16 = 0xA001#16 → decodeCompressed u = some (.cJ imm))) ∧
  (∀ imm s, ∃ t, exec (.cJal imm) s = .next t ∧
    WritesRegister s t 1 (s.pc + 2#32) (BitVec.ofInt 32 (s.pc.toNat + imm.toInt)) []) ∧
  (∀ imm s, ∃ t, exec (.cJ imm) s = .next t ∧ MovesPc s t (BitVec.ofInt 32 (s.pc.toNat + imm.toInt)) [])

/-- R223, R224: the register tested is x[8 + rs1'] (R101). -/
def Obligations.CBeqzAndCBnezTestARegister : Prop :=
  (∀ u : BitVec 16,
    let imm : BitVec 9 := u.extractLsb' 12 1 ++ u.extractLsb' 5 2 ++ u.extractLsb' 2 1 ++ u.extractLsb' 10 2 ++
      u.extractLsb' 3 2 ++ 0#1
    (u &&& 0xE003#16 = 0xC001#16 → decodeCompressed u = some (.cBeqz (u.extractLsb' 7 3).toFin imm)) ∧
    (u &&& 0xE003#16 = 0xE001#16 → decodeCompressed u = some (.cBnez (u.extractLsb' 7 3).toFin imm))) ∧
  (∀ f : PopIdx, (popular f).val = 8 + f.val) ∧
  ∀ rs1 imm s,
    let a := s.readReg (popular rs1)
    let target : Word := BitVec.ofInt 32 (s.pc.toNat + imm.toInt)
    (∃ t, exec (.cBeqz rs1 imm) s = .next t ∧ MovesPc s t (if a = 0#32 then target else s.pc + 2#32) []) ∧
    (∃ t, exec (.cBnez rs1 imm) s = .next t ∧ MovesPc s t (if a ≠ 0#32 then target else s.pc + 2#32) [])

/-- R225: the target is copied unchanged and no register is written; an odd target halts the next step with `OddPc`. The form
with funct4 1001 is invalid. -/
def Obligations.CJrCopiesTheRegisterToPc : Prop :=
  (∀ u : BitVec 16, u &&& 0xF07F#16 = 0x8002#16 → decodeCompressed u = some (.cJr (u.extractLsb' 7 5).toFin)) ∧
  (∀ u : BitVec 16, u &&& 0xF07F#16 = 0x9002#16 → decodeCompressed u = none) ∧
  ∀ rs1 s, ∃ t, exec (.cJr rs1) s = .next t ∧ MovesPc s t (s.readReg rs1) [] ∧
    (s.run = .running → (s.readReg rs1).getLsbD 0 = true → HaltsWith (.oddPc (s.readReg rs1)) t (step t))

/-! ## Encoding and decoding -/

/-- Words written out from the encodings of the spec decode to the instructions they stand for (R98, R110). -/
def Obligations.WordsOfTheSpecDecode : Prop :=
  decodeStandard 0x123452B7#32 = some (.lui 5 0x12345#20) ∧ decodeStandard 0x19A00293#32 = some (.addi 5 0 410#12) ∧
  decodeStandard 0x407302B3#32 = some (.sub 5 6 7) ∧ decodeStandard 0x00332283#32 = some (.lw 5 6 3#12) ∧
  decodeStandard 0x00732423#32 = some (.sw 7 6 8#12) ∧ decodeStandard 0x00731863#32 = some (.bne 6 7 16#13) ∧
  decodeStandard 0x008000EF#32 = some (.jal 1 8#21) ∧ decodeCompressed 0x0028#16 = some (.cAddi4spn 2 8#10) ∧
  decodeCompressed 0x717D#16 = some (.cAddi16spField2 0x3F0#10) ∧ decodeCompressed 0x41C8#16 = some (.cLw 2 3 4#7) ∧
  decodeCompressed 0xC606#16 = some (.cSwsp 1 12#8) ∧ decodeCompressed 0x37C5#16 = some (.cJal 0xFE0#12) ∧
  decodeCompressed 0xFFED#16 = some (.cBnez 7 0x1FA#9) ∧ decodeCompressed 0x8082#16 = some (.cJr 1)

/-- R117: the most negative and the most positive value of every signed immediate field, and the least and the greatest value
of the fields that have no sign bit (imm_u, uimm_lw, uimm_swsp). The encodings are those of 95_test_vectors.md, or written
from the rows where it has none (AUIPC, the zero offsets). -/
def Obligations.SignedImmediateExtremesDecode : Prop :=
  (∃ i, decodeStandard 0x80030293#32 = some (.addi 5 6 i) ∧ i.toInt = -2048) ∧
  (∃ i, decodeStandard 0x7FF30293#32 = some (.addi 5 6 i) ∧ i.toInt = 2047) ∧
  (∃ i, decodeStandard 0x80732023#32 = some (.sw 7 6 i) ∧ i.toInt = -2048) ∧
  (∃ i, decodeStandard 0x7E732FA3#32 = some (.sw 7 6 i) ∧ i.toInt = 2047) ∧
  (∃ i, decodeStandard 0x80031063#32 = some (.bne 6 0 i) ∧ i.toInt = -4096) ∧
  (∃ i, decodeStandard 0x7E031FE3#32 = some (.bne 6 0 i) ∧ i.toInt = 4094) ∧
  (∃ i, decodeStandard 0x800000EF#32 = some (.jal 1 i) ∧ i.toInt = -1048576) ∧
  (∃ i, decodeStandard 0x7FFFF0EF#32 = some (.jal 1 i) ∧ i.toInt = 1048574) ∧
  (∃ i, decodeStandard 0x000002B7#32 = some (.lui 5 i) ∧ immU i = 0x00000000#32) ∧
  (∃ i, decodeStandard 0x800002B7#32 = some (.lui 5 i) ∧ immU i = 0x80000000#32) ∧
  (∃ i, decodeStandard 0xFFFFF2B7#32 = some (.lui 5 i) ∧ immU i = 0xFFFFF000#32) ∧
  (∃ i, decodeStandard 0x00000297#32 = some (.auipc 5 i) ∧ immU i = 0x00000000#32) ∧
  (∃ i, decodeStandard 0xFFFFF297#32 = some (.auipc 5 i) ∧ immU i = 0xFFFFF000#32) ∧
  (∃ i, decodeCompressed 0x1501#16 = some (.cAddi 10 i) ∧ i.toInt = -32) ∧
  (∃ i, decodeCompressed 0x057D#16 = some (.cAddi 10 i) ∧ i.toInt = 31) ∧
  (∃ i, decodeCompressed 0x7501#16 = some (.cLui 10 i) ∧ immClui i = 0xFFFE0000#32) ∧
  (∃ i, decodeCompressed 0x657D#16 = some (.cLui 10 i) ∧ immClui i = 0x0001F000#32) ∧
  (∃ i, decodeCompressed 0x7101#16 = some (.cAddi16spField2 i) ∧ i.toInt = -512) ∧
  (∃ i, decodeCompressed 0x617D#16 = some (.cAddi16spField2 i) ∧ i.toInt = 496) ∧
  (∃ i, decodeCompressed 0x041C#16 = some (.cAddi4spn 7 i) ∧ i.toInt = -512) ∧
  (∃ i, decodeCompressed 0x1BFC#16 = some (.cAddi4spn 7 i) ∧ i.toInt = 508) ∧
  (∃ i, decodeCompressed 0xB001#16 = some (.cJ i) ∧ i.toInt = -2048) ∧
  (∃ i, decodeCompressed 0xAFFD#16 = some (.cJ i) ∧ i.toInt = 2046) ∧
  (∃ i, decodeCompressed 0xD001#16 = some (.cBeqz 0 i) ∧ i.toInt = -256) ∧
  (∃ i, decodeCompressed 0xCC7D#16 = some (.cBeqz 0 i) ∧ i.toInt = 254) ∧
  (∃ i, decodeCompressed 0x4080#16 = some (.cLw 0 1 i) ∧ i.toNat = 0) ∧
  (∃ i, decodeCompressed 0xC080#16 = some (.cSw 0 1 i) ∧ i.toNat = 0) ∧
  (∃ i, decodeCompressed 0xC02A#16 = some (.cSwsp 10 i) ∧ i.toNat = 0) ∧
  (∃ i, decodeCompressed 0x5CE0#16 = some (.cLw 0 1 i) ∧ i.toNat = 124) ∧
  (∃ i, decodeCompressed 0xDCE0#16 = some (.cSw 0 1 i) ∧ i.toNat = 124) ∧
  (∃ i, decodeCompressed 0xDFAA#16 = some (.cSwsp 10 i) ∧ i.toNat = 252)

/-- R98, R99, R112: the standard decoder finds exactly the rows of the opcode map; a word that matches no row is invalid. -/
def Obligations.StandardDecoderIsTheOpcodeMap : Prop :=
  ∀ (w : BitVec 32) (name : String),
    (∃ i, decodeStandard w = some i ∧ mnemonic i = name) ↔
      ∃ m k, (name, m, k) ∈ standardRows ∧ w &&& k = m

/-- R110, R111: the compressed decoder finds exactly the rows of the opcode map with their guards. -/
def Obligations.CompressedDecoderIsTheOpcodeMap : Prop :=
  ∀ (u : BitVec 16) (name : String),
    (∃ i, decodeCompressed u = some i ∧ mnemonic i = name) ↔
      ∃ m k, (name, m, k) ∈ compressedRows ∧ u &&& k = m ∧ compressedGuard name u

/-- R113: the invalid compressed units are exactly the five listed classes. -/
def Obligations.InvalidCompressedUnitsAreTheListedOnes : Prop :=
  ∀ u : BitVec 16,
    let op := u.extractLsb' 0 2
    let f3 := u.extractLsb' 13 3
    let f4 := u.extractLsb' 12 4
    let r := u.extractLsb' 7 5
    let r2 := u.extractLsb' 2 5
    op ≠ 3#2 →
    (decodeCompressed u = none ↔
      (op = 0#2 ∧ (f3 = 1#3 ∨ f3 = 3#3 ∨ f3 = 4#3 ∨ f3 = 5#3 ∨ f3 = 7#3)) ∨ u = 0x0000#16 ∨
      (op = 1#2 ∧ f3 = 4#3 ∧ u.extractLsb' 10 2 ≠ 2#2) ∨
      (op = 2#2 ∧ (f3 = 0#3 ∨ f3 = 1#3 ∨ f3 = 2#3 ∨ f3 = 3#3 ∨ f3 = 5#3 ∨ f3 = 7#3)) ∨
      (op = 2#2 ∧ f4 = 8#4 ∧ r = 0#5 ∧ r2 ≠ 0#5) ∨
      (op = 2#2 ∧ f4 = 9#4 ∧ (r = 0#5 ∨ r2 = 0#5)))

/-- Decoding the bytes of an encoded well-formed instruction gives it back, with whatever follows it (all 33 forms, every
operand value). -/
def Obligations.DecodeOfEncodeIsTheInstruction : Prop :=
  ∀ (i : Instr) (rest : List Byte), i.WellFormed → decode ((encode i).bytes ++ rest) = .instr (encode i) i rest

/-- Whatever decodes is well-formed, is re-encoded to the same raw bits, and took exactly its own bytes: each encoding has
one meaning and no bit of it is dropped. -/
def Obligations.EncodeOfDecodeIsTheBytes : Prop :=
  ∀ (bytes : List Byte) (raw : Raw) (i : Instr) (rest : List Byte), decode bytes = .instr raw i rest →
    i.WellFormed ∧ encode i = raw ∧ bytes = raw.bytes ++ rest

/-- R90: the low two bits of the first byte alone decide the length, for what decodes and for what is rejected. -/
def Obligations.LengthIsToldByTheLowTwoBits : Prop :=
  ∀ (b0 b1 : Byte) (bytes : List Byte),
    (∀ rest raw i, decode (b0 :: b1 :: bytes) = .instr raw i rest →
      (b0.extractLsb' 0 2 = 3#2 → raw.length = 4 ∧ rest.length + 4 = bytes.length + 2) ∧
      (b0.extractLsb' 0 2 ≠ 3#2 → raw.length = 2 ∧ rest = bytes)) ∧
    (b0.extractLsb' 0 2 = 3#2 → ∀ u, decode (b0 :: b1 :: bytes) ≠ .invalidCompressed u) ∧
    (b0.extractLsb' 0 2 ≠ 3#2 → decode (b0 :: b1 :: bytes) ≠ .truncated ∧
      ∀ w, decode (b0 :: b1 :: bytes) ≠ .invalidInstruction w)

/-! ## The step -/

/-- R240, R245, R246: when the bytes at an even pc of a running core decode to an instruction whose parcels lie in memory, the
step is the execution of that instruction with its trace event appended. Addresses are modulo 2^32, so the second parcel of an
instruction at 0xFFFF_FFFE is the one at address 0 (R27). When the execution halts, only the reason is kept (R250); that the
trace event is dropped with the rest is the model's choice (log 10, DESIGN CHOICE: R278 leaves open whether an instruction
that decodes and then faults is traced). -/
def Obligations.StepRunsTheDecodedInstruction : Prop :=
  ∀ (s : State) (raw : Raw) (i : Instr) (rest : List Byte), s.run = .running → s.pc.getLsbD 0 = false →
    decode [s.readByte s.pc.toNat, s.readByte (s.pc + 1#32).toNat, s.readByte (s.pc + 2#32).toNat,
      s.readByte (s.pc + 3#32).toNat] = .instr raw i rest →
    s.pc.toNat + 2 ≤ s.cfg.memSize → (raw.length = 4 → (s.pc + 2#32).toNat + 2 ≤ s.cfg.memSize) →
    (∀ t, exec i (s.emit (.trace s.pc raw i)) = .next t → t.run = .running → step s = .next t) ∧
    (∀ t f, exec i (s.emit (.trace s.pc raw i)) = .next t → t.run = .halted f → HaltsWith f s (step s))

/-- The host's placing of one instruction: the next step runs the instruction that the decoder reads (log 14). -/
def Obligations.WithFetchWordIsRunNext : Prop :=
  ∀ (s : State) (nbits w : Nat) (raw : Raw) (i : Instr) (rest : List Byte), s.mem.wf = true →
    decode (tableBytes nbits w) = .instr raw i rest →
    let s' := s.withFetchWord nbits w
    s'.run = .running ∧ step s' = commit s' (exec i (s'.emit (.trace s'.pc raw i)))

/-- R242, R264: an odd pc halts before any fetch. -/
def Obligations.OddPcHaltsBeforeTheFetch : Prop :=
  ∀ s : State, s.run = .running → s.pc.getLsbD 0 = true → HaltsWith (.oddPc s.pc) s (step s)

/-- R266, R243, R245: a parcel outside backing memory halts; the second parcel is fetched only when the first has low bits
0b11, and its address is pc + 2 modulo 2^32. -/
def Obligations.FetchOutsideMemoryHalts : Prop :=
  ∀ s : State, s.run = .running → s.pc.getLsbD 0 = false →
    (s.cfg.memSize < s.pc.toNat + 2 → HaltsWith (.fetchOutOfRange s.pc) s (step s)) ∧
    (s.pc.toNat + 2 ≤ s.cfg.memSize → (s.readByte s.pc.toNat).extractLsb' 0 2 = 3#2 →
      s.cfg.memSize < (s.pc + 2#32).toNat + 2 → HaltsWith (.fetchOutOfRange (s.pc + 2#32)) s (step s))

/-- R262, R263: at an even pc of a running core, a word whose two parcels lie in memory (the second at pc + 2 modulo 2^32,
R245, R27), with low bits 0b11, that matches no row of the standard map, and a unit with other low bits that matches no row of
the compressed map with its guard, halt with the pc, the raw encoding and, for a unit, its fields. -/
def Obligations.InvalidEncodingsHalt : Prop :=
  ∀ (s : State), s.run = .running → s.pc.getLsbD 0 = false →
    (s.pc.toNat + 2 ≤ s.cfg.memSize → (s.pc + 2#32).toNat + 2 ≤ s.cfg.memSize →
      let w : BitVec 32 := s.memRead16 (s.pc + 2#32).toNat ++ s.memRead16 s.pc.toNat
      w.extractLsb' 0 2 = 3#2 → (∀ name m k, (name, m, k) ∈ standardRows → w &&& k ≠ m) →
        HaltsWith (.invalidInstruction s.pc w) s (step s)) ∧
    (s.pc.toNat + 2 ≤ s.cfg.memSize →
      let u := s.memRead16 s.pc.toNat
      u.extractLsb' 0 2 ≠ 3#2 → (∀ name m k, (name, m, k) ∈ compressedRows → u &&& k = m → ¬compressedGuard name u) →
        HaltsWith (.invalidCompressed s.pc u (u.extractLsb' 0 2) (u.extractLsb' 13 3) (u.extractLsb' 12 4)) s (step s))

/-- R247: a halted core stays as it is, for any number of steps. -/
def Obligations.HaltedIsTerminal : Prop :=
  ∀ (s : State) (f : HaltReason) (n : Nat), s.run = .halted f → step s = .next s ∧ Sys2Proof.core.run n s = .next s

/-- R249, R31, R20: the step is total (every state has a next state; nothing is refused, no host-level fault occurs), and no
step changes the size of backing memory or SWSP_MISALIGN. -/
def Obligations.StepIsTotalAndKeepsTheParameters : Prop := ∀ s : State, ∃ t, step s = .next t ∧ t.cfg = s.cfg

/-- R270, R250: an instruction that halts, and a step that halts, change the run state and nothing else. That the event list of
a halting step is unchanged even by the trace event of an instruction that decoded is the model's choice (log 10, DESIGN CHOICE:
R278 leaves it open). -/
def Obligations.HaltingChangesOnlyTheRunState : Prop :=
  (∀ (i : Instr) (s t : State) (f : HaltReason), s.run = .running → exec i s = .next t → t.run = .halted f →
    t = { s with run := .halted f }) ∧
  (∀ (s t : State) (f : HaltReason), step s = .next t → t.run = .halted f → t = { s with run := .halted f })

/-- R261, R265, R267, R268, R269: the only instructions that halt are the loads and stores, each with its own reasons. -/
def Obligations.OnlyLoadsAndStoresHaltInExecution : Prop :=
  ∀ (i : Instr) (s t : State) (f : HaltReason), s.run = .running → exec i s = .next t → t.run = .halted f →
    (∃ rd rs1 imm, i = .lbu rd rs1 imm ∧ f = .loadOutOfRange (eaStandard rs1 imm s)) ∨
    (∃ rd rs1 imm, i = .lw rd rs1 imm ∧ f = .loadOutOfRange (eaStandard rs1 imm s)) ∨
    (∃ rd rs1 uimm, i = .cLw rd rs1 uimm ∧ f = .loadOutOfRange (eaCompressed (popular rs1) uimm s)) ∨
    (∃ rs2 rs1 imm, i = .sw rs2 rs1 imm ∧
      (f = .storeBound (eaStandard rs1 imm s) ∨ f = .storeOutOfRange (eaStandard rs1 imm s))) ∨
    (∃ rs2 rs1 uimm, i = .cSw rs2 rs1 uimm ∧
      (f = .storeBound (eaCompressed (popular rs1) uimm s) ∨
        f = .storeOutOfRange (eaCompressed (popular rs1) uimm s))) ∨
    (∃ rs2 uimm, i = .cSwsp rs2 uimm ∧
      (f = .swspMisaligned (eaCompressed 2 uimm s) ∨ f = .storeOutOfRange (eaCompressed 2 uimm s)))

/-! ## Rules about the whole machine -/

/-- Every step keeps the invariant. Its parts are the model's own: memory is canonical (log 7, DESIGN CHOICE) and lists no byte
at MEM_SIZE or above (R31), slot 0 of the register array, which nothing reads, is zero (log 11, DESIGN CHOICE), MEM_SIZE is at
most 2^32 (log 5, DEDUCED). -/
def Obligations.EveryStepKeepsTheInvariant : Prop :=
  ∀ s t : State, s.Inv → step s = .next t → t.Inv

/-- R26: from an even pc, only C.JR of an odd register makes pc odd. -/
def Obligations.OnlyCJrMakesThePcOdd : Prop :=
  ∀ s t : State, s.run = .running → s.pc.getLsbD 0 = false → step s = .next t → t.pc.getLsbD 0 = true →
    ∃ raw rs1, s.fetchDecode = .ok (raw, .cJr rs1) ∧ t.pc = s.readReg rs1

/-- R25: an instruction that neither branches nor jumps, when it completes, advances pc by its own length. -/
def Obligations.FallThroughAdvancesByTheLength : Prop :=
  ∀ (i : Instr) (s t : State), s.run = .running → IsControl i = false → exec i s = .next t → t.run = .running →
    t.pc = s.pc + BitVec.ofNat 32 (encode i).length

/-- R31, R62: an instruction that is not SW, C.SW or C.SWSP leaves memory as it is. -/
def Obligations.OnlyStoresWriteMemory : Prop :=
  ∀ (i : Instr) (s t : State), ¬IsStore i → exec i s = .next t → t.mem = s.mem

/-- Events are only appended (R20; the list in State: log 9), and a step that halts, or is taken halted, appends none (R250,
R247). That it appends no trace event either, when its instruction decoded and then faulted, is the model's choice (log 10,
DESIGN CHOICE: R278 leaves it open). -/
def Obligations.EventsAreOnlyAppended : Prop :=
  ∀ s t : State, step s = .next t → (∃ l, t.events = s.events ++ l) ∧ (t.run ≠ .running → t.events = s.events)

/-- R278: a completed instruction appends its trace event first and then at most one diagnostic. -/
def Obligations.TraceComesBeforeTheDiagnostic : Prop :=
  ∀ (s t : State) (raw : Raw) (i : Instr), s.run = .running → s.fetchDecode = .ok (raw, i) → step s = .next t →
    t.run = .running → ∃ d, t.events = s.events ++ .trace s.pc raw i :: d ∧ d.length ≤ 1 ∧
      (∀ e ∈ d, (∃ v, e = .x0Write v) ∨ (∃ a, e = .ioLoad a) ∨ (∃ a v, e = .ioStore a v))

/-- R275: only the standard instructions with rd = 0 and C.ADDI and C.LI with a zero field report a write to register 0, and
only of a nonzero value. -/
def Obligations.X0WriteComesOnlyFromDestinationZero : Prop :=
  ∀ (i : Instr) (s t : State) (v : Word), i.WellFormed → exec i s = .next t → .x0Write v ∈ t.events.drop s.events.length →
    v ≠ 0#32 ∧
    ((∃ x, i = .lui 0 x) ∨ (∃ x, i = .auipc 0 x) ∨ (∃ x, i = .jal 0 x) ∨ (∃ a x, i = .addi 0 a x) ∨
      (∃ a x, i = .andi 0 a x) ∨ (∃ a b, i = .add 0 a b) ∨ (∃ a b, i = .sub 0 a b) ∨ (∃ a b, i = .xor 0 a b) ∨
      (∃ a x, i = .lbu 0 a x) ∨ (∃ a x, i = .lw 0 a x) ∨ (∃ x, i = .cAddi 0 x) ∨ (∃ x, i = .cLi 0 x))

/-- R308: the unit 0xA001 (C.J 0) at pc keeps the core running for ever, with the same pc, registers and memory at every
instruction boundary. -/
def Obligations.JumpToItselfNeverHalts : Prop :=
  ∀ s : State, s.run = .running → s.pc.getLsbD 0 = false → s.pc.toNat + 2 ≤ s.cfg.memSize →
    s.memRead16 s.pc.toNat = 0xA001#16 → NeverHalts s ∧
      ∀ t, Reaches s t → t.pc = s.pc ∧ (∀ r, t.readReg r = s.readReg r) ∧ ∀ a, t.readByte a = s.readByte a

/-- R120: the two-instruction expansions of LI and LA give any 32-bit constant and any pc-relative address. -/
def Obligations.LoadConstantExpansionsReachEveryValue : Prop :=
  ∀ (rd : RegIdx) (v : Word) (s : State), rd ≠ 0 →
    (∃ t u, exec (.lui rd (hi20 v)) s = .next t ∧ exec (.addi rd rd (lo12 v)) t = .next u ∧ u.readReg rd = v) ∧
    (∃ t u, exec (.auipc rd (hi20 v)) s = .next t ∧ exec (.addi rd rd (lo12 v)) t = .next u ∧ u.readReg rd = s.pc + v)
end

