-- ==== Sys2Proof/Laws/Encoding.lean ====
section
/-! SUPPORT. What the fields of an encoded instruction are, one theorem per format of 30_encoding.md, and how a masked
comparison gives the fields under the mask. -/

namespace Sys2Proof

/-! ## Register fields -/

@[simp] theorem regOf_regBits (r : RegIdx) : regOf (regBits r) = r := rfl
@[simp] theorem regBits_regOf (b : BitVec 5) : regBits (regOf b) = b := rfl
@[simp] theorem popOf_popBits (p : PopIdx) : popOf (popBits p) = p := rfl
@[simp] theorem popBits_popOf (b : BitVec 3) : popBits (popOf b) = b := rfl

theorem regOf_eq_iff (b : BitVec 5) (r : RegIdx) : regOf b = r ↔ b = regBits r := by
  constructor
  · rintro rfl; rfl
  · rintro rfl; rfl

theorem popOf_eq_iff (b : BitVec 3) (p : PopIdx) : popOf b = p ↔ b = popBits p := by
  constructor
  · rintro rfl; rfl
  · rintro rfl; rfl

/-- Two register fields are equal exactly when the numbers are. -/
theorem cReg_eq_iff (u : BitVec 16) (b : BitVec 5) : cReg u = regOf b ↔ u.extractLsb' 7 5 = b := BitVec.toFin_inj

theorem cReg2_eq_iff (u : BitVec 16) (b : BitVec 5) : cReg2 u = regOf b ↔ u.extractLsb' 2 5 = b := BitVec.toFin_inj

/-! ## Fields under a mask -/

/-- A field that the mask covers is the field of the match value. -/
theorem field_of_mask {n : Nat} {w k m : BitVec n} (start len : Nat) (h : w &&& k = m)
    (hk : k.extractLsb' start len = BitVec.allOnes len) : w.extractLsb' start len = m.extractLsb' start len := by
  have := congrArg (BitVec.extractLsb' start len) h
  rwa [BitVec.extractLsb'_and, hk, BitVec.and_allOnes] at this

/-- `unit[15:13]` is the upper part of `unit[15:12]` (30_encoding.md R100). -/
theorem cFunct3_eq (u : BitVec 16) : cFunct3 u = (cFunct4 u).extractLsb' 1 3 := by
  refine BitVec.eq_of_getLsbD_eq fun i hi => ?_
  simp only [cFunct3, cFunct4, BitVec.getLsbD_extractLsb']
  interval_cases i <;> simp

/-! ## The fields of each standard format -/

theorem fields_encodeR {f7 : BitVec 7} {rs2 rs1 rd : RegIdx} {f3 : BitVec 3} {op : BitVec 7} {w : BitVec 32}
    (h : encodeR f7 rs2 rs1 f3 rd op = .word w) :
    opcode w = op ∧ funct3 w = f3 ∧ funct7 w = f7 ∧ fieldRd w = rd ∧ fieldRs1 w = rs1 ∧ fieldRs2 w = rs2 := by
  cases h
  refine ⟨?_, ?_, ?_, (regOf_eq_iff _ _).2 ?_, (regOf_eq_iff _ _).2 ?_, (regOf_eq_iff _ _).2 ?_⟩
  all_goals
    refine BitVec.eq_of_getLsbD_eq fun i hi => ?_
    simp only [opcode, funct3, funct7, BitVec.getLsbD_extractLsb', BitVec.getLsbD_append]
    interval_cases i <;> simp

theorem fields_encodeI {imm : BitVec 12} {rs1 rd : RegIdx} {f3 : BitVec 3} {op : BitVec 7} {w : BitVec 32}
    (h : encodeI imm rs1 f3 rd op = .word w) :
    opcode w = op ∧ funct3 w = f3 ∧ fieldRd w = rd ∧ fieldRs1 w = rs1 ∧ fieldImmI w = imm := by
  cases h
  refine ⟨?_, ?_, (regOf_eq_iff _ _).2 ?_, (regOf_eq_iff _ _).2 ?_, ?_⟩
  all_goals
    refine BitVec.eq_of_getLsbD_eq fun i hi => ?_
    simp only [opcode, funct3, fieldImmI, BitVec.getLsbD_extractLsb', BitVec.getLsbD_append]
    interval_cases i <;> simp

theorem fields_encodeS {imm : BitVec 12} {rs2 rs1 : RegIdx} {f3 : BitVec 3} {op : BitVec 7} {w : BitVec 32}
    (h : encodeS imm rs2 rs1 f3 op = .word w) :
    opcode w = op ∧ funct3 w = f3 ∧ fieldRs1 w = rs1 ∧ fieldRs2 w = rs2 ∧ fieldImmS w = imm := by
  cases h
  refine ⟨?_, ?_, (regOf_eq_iff _ _).2 ?_, (regOf_eq_iff _ _).2 ?_, BitVec.eq_of_getLsbD_eq (w := 7 + 5) fun i hi => ?_⟩
  all_goals
    try refine BitVec.eq_of_getLsbD_eq fun i hi => ?_
    simp only [opcode, funct3, fieldImmS, BitVec.getLsbD_extractLsb', BitVec.getLsbD_append]
    interval_cases i <;> simp

theorem fields_encodeB {imm : BitVec 13} {rs2 rs1 : RegIdx} {f3 : BitVec 3} {w : BitVec 32}
    (h : encodeB imm rs2 rs1 f3 = .word w) (hz : imm.getLsbD 0 = false) :
    opcode w = 0b1100011#7 ∧ funct3 w = f3 ∧ fieldRs1 w = rs1 ∧ fieldRs2 w = rs2 ∧ fieldImmB w = imm := by
  cases h
  refine ⟨?_, ?_, (regOf_eq_iff _ _).2 ?_, (regOf_eq_iff _ _).2 ?_,
    BitVec.eq_of_getLsbD_eq (w := 1 + 1 + 6 + 4 + 1) fun i hi => ?_⟩
  all_goals
    try refine BitVec.eq_of_getLsbD_eq fun i hi => ?_
    simp only [opcode, funct3, fieldImmB, BitVec.getLsbD_extractLsb', BitVec.getLsbD_append]
    interval_cases i <;> simp_all

theorem fields_encodeU {imm20 : BitVec 20} {rd : RegIdx} {op : BitVec 7} {w : BitVec 32}
    (h : encodeU imm20 rd op = .word w) : opcode w = op ∧ fieldRd w = rd ∧ fieldImm20 w = imm20 := by
  cases h
  refine ⟨?_, (regOf_eq_iff _ _).2 ?_, ?_⟩
  all_goals
    refine BitVec.eq_of_getLsbD_eq fun i hi => ?_
    simp only [opcode, fieldImm20, BitVec.getLsbD_extractLsb', BitVec.getLsbD_append]
    interval_cases i <;> simp

theorem fields_encodeJ {imm : BitVec 21} {rd : RegIdx} {w : BitVec 32} (h : encodeJ imm rd = .word w)
    (hz : imm.getLsbD 0 = false) : opcode w = 0b1101111#7 ∧ fieldRd w = rd ∧ fieldImmJ w = imm := by
  cases h
  refine ⟨?_, (regOf_eq_iff _ _).2 ?_, BitVec.eq_of_getLsbD_eq (w := 1 + 8 + 1 + 10 + 1) fun i hi => ?_⟩
  all_goals
    try refine BitVec.eq_of_getLsbD_eq fun i hi => ?_
    simp only [opcode, fieldImmJ, BitVec.getLsbD_extractLsb', BitVec.getLsbD_append]
    interval_cases i <;> simp_all

/-! ## The fields of each compressed format -/

theorem fields_encodeCI {f3 : BitVec 3} {rd : RegIdx} {imm : BitVec 6} {u : BitVec 16} (h : encodeCI f3 rd imm = .unit u) :
    cOp u = 0b01#2 ∧ cFunct3 u = f3 ∧ cReg u = rd ∧ cImm6 u = imm := by
  cases h
  refine ⟨?_, ?_, (regOf_eq_iff _ _).2 ?_, BitVec.eq_of_getLsbD_eq (w := 1 + 5) fun i hi => ?_⟩
  all_goals
    try refine BitVec.eq_of_getLsbD_eq fun i hi => ?_
    simp only [cOp, cFunct3, cImm6, BitVec.getLsbD_extractLsb', BitVec.getLsbD_append]
    interval_cases i <;> simp

theorem fields_encodeC16sp {r : BitVec 5} {imm : BitVec 10} {u : BitVec 16} (h : encodeC16sp r imm = .unit u)
    (hz : ∀ i, i < 4 → imm.getLsbD i = false) :
    cOp u = 0b01#2 ∧ cFunct3 u = 0b011#3 ∧ cReg u = regOf r ∧ cImm16sp u = imm := by
  cases h
  have z0 := hz 0; have z1 := hz 1; have z2 := hz 2; have z3 := hz 3
  refine ⟨?_, ?_, (regOf_eq_iff _ _).2 ?_, BitVec.eq_of_getLsbD_eq (w := 1 + 2 + 1 + 1 + 1 + 4) fun i hi => ?_⟩
  all_goals
    try refine BitVec.eq_of_getLsbD_eq fun i hi => ?_
    simp only [cOp, cFunct3, cImm16sp, BitVec.getLsbD_extractLsb', BitVec.getLsbD_append, regBits_regOf]
    interval_cases i <;> simp_all

theorem fields_encodeCIW {rd : PopIdx} {imm : BitVec 10} {u : BitVec 16} (h : encodeCIW rd imm = .unit u)
    (hz : ∀ i, i < 2 → imm.getLsbD i = false) :
    cOp u = 0b00#2 ∧ cFunct3 u = 0b000#3 ∧ cPop2 u = rd ∧ cImm4spn u = imm := by
  cases h
  have z0 := hz 0; have z1 := hz 1
  refine ⟨?_, ?_, (popOf_eq_iff _ _).2 ?_, BitVec.eq_of_getLsbD_eq (w := 4 + 2 + 1 + 1 + 2) fun i hi => ?_⟩
  all_goals
    try refine BitVec.eq_of_getLsbD_eq fun i hi => ?_
    simp only [cOp, cFunct3, cImm4spn, BitVec.getLsbD_extractLsb', BitVec.getLsbD_append]
    interval_cases i <;> simp_all

theorem fields_encodeCLS {f3 : BitVec 3} {rp2 rp1 : PopIdx} {uimm : BitVec 7} {u : BitVec 16}
    (h : encodeCLS f3 rp2 rp1 uimm = .unit u) (hz : ∀ i, i < 2 → uimm.getLsbD i = false) :
    cOp u = 0b00#2 ∧ cFunct3 u = f3 ∧ cPop1 u = rp1 ∧ cPop2 u = rp2 ∧ cUimmLw u = uimm := by
  cases h
  have z0 := hz 0; have z1 := hz 1
  refine ⟨?_, ?_, (popOf_eq_iff _ _).2 ?_, (popOf_eq_iff _ _).2 ?_,
    BitVec.eq_of_getLsbD_eq (w := 1 + 3 + 1 + 2) fun i hi => ?_⟩
  all_goals
    try refine BitVec.eq_of_getLsbD_eq fun i hi => ?_
    simp only [cOp, cFunct3, cUimmLw, BitVec.getLsbD_extractLsb', BitVec.getLsbD_append]
    interval_cases i <;> simp_all

theorem fields_encodeCJ {f3 : BitVec 3} {imm : BitVec 12} {u : BitVec 16} (h : encodeCJ f3 imm = .unit u)
    (hz : imm.getLsbD 0 = false) : cOp u = 0b01#2 ∧ cFunct3 u = f3 ∧ cImmJ u = imm := by
  cases h
  refine ⟨?_, ?_, BitVec.eq_of_getLsbD_eq (w := 1 + 1 + 2 + 1 + 1 + 1 + 1 + 3 + 1) fun i hi => ?_⟩
  all_goals
    try refine BitVec.eq_of_getLsbD_eq fun i hi => ?_
    simp only [cOp, cFunct3, cImmJ, BitVec.getLsbD_extractLsb', BitVec.getLsbD_append]
    interval_cases i <;> simp_all

theorem fields_encodeCB {f3 : BitVec 3} {rs1 : PopIdx} {imm : BitVec 9} {u : BitVec 16}
    (h : encodeCB f3 rs1 imm = .unit u) (hz : imm.getLsbD 0 = false) :
    cOp u = 0b01#2 ∧ cFunct3 u = f3 ∧ cPop1 u = rs1 ∧ cImmB u = imm := by
  cases h
  refine ⟨?_, ?_, (popOf_eq_iff _ _).2 ?_, BitVec.eq_of_getLsbD_eq (w := 1 + 2 + 1 + 2 + 2 + 1) fun i hi => ?_⟩
  all_goals
    try refine BitVec.eq_of_getLsbD_eq fun i hi => ?_
    simp only [cOp, cFunct3, cImmB, BitVec.getLsbD_extractLsb', BitVec.getLsbD_append]
    interval_cases i <;> simp_all

theorem fields_encodeCBImm {rd : PopIdx} {imm : BitVec 6} {u : BitVec 16} (h : encodeCBImm rd imm = .unit u) :
    cOp u = 0b01#2 ∧ cFunct3 u = 0b100#3 ∧ cFunct2 u = 0b10#2 ∧ cPop1 u = rd ∧ cImm6 u = imm := by
  cases h
  refine ⟨?_, ?_, ?_, (popOf_eq_iff _ _).2 ?_, BitVec.eq_of_getLsbD_eq (w := 1 + 5) fun i hi => ?_⟩
  all_goals
    try refine BitVec.eq_of_getLsbD_eq fun i hi => ?_
    simp only [cOp, cFunct3, cFunct2, cImm6, BitVec.getLsbD_extractLsb', BitVec.getLsbD_append]
    interval_cases i <;> simp

theorem fields_encodeCR {f4 : BitVec 4} {r r2 : RegIdx} {u : BitVec 16} (h : encodeCR f4 r r2 = .unit u) :
    cOp u = 0b10#2 ∧ cFunct4 u = f4 ∧ cReg u = r ∧ cReg2 u = r2 := by
  cases h
  refine ⟨?_, ?_, (regOf_eq_iff _ _).2 ?_, (regOf_eq_iff _ _).2 ?_⟩
  all_goals
    refine BitVec.eq_of_getLsbD_eq fun i hi => ?_
    simp only [cOp, cFunct4, BitVec.getLsbD_extractLsb', BitVec.getLsbD_append]
    interval_cases i <;> simp

theorem fields_encodeCSS {rs2 : RegIdx} {uimm : BitVec 8} {u : BitVec 16} (h : encodeCSS rs2 uimm = .unit u)
    (hz : ∀ i, i < 2 → uimm.getLsbD i = false) :
    cOp u = 0b10#2 ∧ cFunct3 u = 0b110#3 ∧ cReg2 u = rs2 ∧ cUimmSwsp u = uimm := by
  cases h
  have z0 := hz 0; have z1 := hz 1
  refine ⟨?_, ?_, (regOf_eq_iff _ _).2 ?_, BitVec.eq_of_getLsbD_eq (w := 2 + 4 + 2) fun i hi => ?_⟩
  all_goals
    try refine BitVec.eq_of_getLsbD_eq fun i hi => ?_
    simp only [cOp, cFunct3, cUimmSwsp, BitVec.getLsbD_extractLsb', BitVec.getLsbD_append]
    interval_cases i <;> simp_all

/-- The zero bits that well-formedness asks for, bit by bit. -/
theorem lowZero_getLsbD {w n : Nat} {imm : BitVec w} (h : lowZero n imm = true) (i : Nat) (hi : i < n) :
    imm.getLsbD i = false := by
  have h' : imm.extractLsb' 0 n = 0#n := by simpa [lowZero] using h
  have := congrArg (fun v => v.getLsbD i) h'
  simpa [BitVec.getLsbD_extractLsb', hi] using this

/-! ## A word or unit is put together again from its fields -/

theorem encodeR_fields (w : BitVec 32) :
    encodeR (funct7 w) (fieldRs2 w) (fieldRs1 w) (funct3 w) (fieldRd w) (opcode w) = .word w := by
  refine congrArg Raw.word (BitVec.eq_of_getLsbD_eq (w := 7 + 5 + 5 + 3 + 5 + 7) fun i hi => ?_)
  simp only [funct7, fieldRs2, fieldRs1, funct3, fieldRd, opcode, regBits_regOf, BitVec.getLsbD_append,
    BitVec.getLsbD_extractLsb']
  interval_cases i <;> simp

theorem encodeI_fields (w : BitVec 32) :
    encodeI (fieldImmI w) (fieldRs1 w) (funct3 w) (fieldRd w) (opcode w) = .word w := by
  refine congrArg Raw.word (BitVec.eq_of_getLsbD_eq (w := 12 + 5 + 3 + 5 + 7) fun i hi => ?_)
  simp only [fieldImmI, fieldRs1, funct3, fieldRd, opcode, regBits_regOf, BitVec.getLsbD_append,
    BitVec.getLsbD_extractLsb']
  interval_cases i <;> simp

theorem encodeS_fields (w : BitVec 32) :
    encodeS (fieldImmS w) (fieldRs2 w) (fieldRs1 w) (funct3 w) (opcode w) = .word w := by
  refine congrArg Raw.word (BitVec.eq_of_getLsbD_eq (w := 7 + 5 + 5 + 3 + 5 + 7) fun i hi => ?_)
  simp only [fieldImmS, fieldRs2, fieldRs1, funct3, opcode, regBits_regOf, BitVec.getLsbD_append,
    BitVec.getLsbD_extractLsb']
  interval_cases i <;> simp

theorem encodeB_fields (w : BitVec 32) (h : opcode w = 0b1100011#7) :
    encodeB (fieldImmB w) (fieldRs2 w) (fieldRs1 w) (funct3 w) = .word w := by
  unfold encodeB
  rw [← h]
  refine congrArg Raw.word (BitVec.eq_of_getLsbD_eq (w := 1 + 6 + 5 + 5 + 3 + 4 + 1 + 7) fun i hi => ?_)
  simp only [fieldImmB, fieldRs2, fieldRs1, funct3, opcode, regBits_regOf, BitVec.getLsbD_append,
    BitVec.getLsbD_extractLsb']
  interval_cases i <;> simp

theorem encodeU_fields (w : BitVec 32) : encodeU (fieldImm20 w) (fieldRd w) (opcode w) = .word w := by
  refine congrArg Raw.word (BitVec.eq_of_getLsbD_eq (w := 20 + 5 + 7) fun i hi => ?_)
  simp only [fieldImm20, fieldRd, opcode, regBits_regOf, BitVec.getLsbD_append, BitVec.getLsbD_extractLsb']
  interval_cases i <;> simp

theorem encodeJ_fields (w : BitVec 32) (h : opcode w = 0b1101111#7) : encodeJ (fieldImmJ w) (fieldRd w) = .word w := by
  unfold encodeJ
  rw [← h]
  refine congrArg Raw.word (BitVec.eq_of_getLsbD_eq (w := 1 + 10 + 1 + 8 + 5 + 7) fun i hi => ?_)
  simp only [fieldImmJ, fieldRd, opcode, regBits_regOf, BitVec.getLsbD_append, BitVec.getLsbD_extractLsb']
  interval_cases i <;> simp

theorem encodeCI_fields (u : BitVec 16) (h : cOp u = 0b01#2) : encodeCI (cFunct3 u) (cReg u) (cImm6 u) = .unit u := by
  unfold encodeCI
  rw [← h]
  refine congrArg Raw.unit (BitVec.eq_of_getLsbD_eq (w := 3 + 1 + 5 + 5 + 2) fun i hi => ?_)
  simp only [cFunct3, cReg, cImm6, cOp, regBits_regOf, BitVec.getLsbD_append, BitVec.getLsbD_extractLsb']
  interval_cases i <;> simp

theorem encodeC16sp_fields (u : BitVec 16) (h : cOp u = 0b01#2) (h3 : cFunct3 u = 0b011#3) :
    encodeC16sp (regBits (cReg u)) (cImm16sp u) = .unit u := by
  unfold encodeC16sp
  rw [← h, ← h3]
  refine congrArg Raw.unit (BitVec.eq_of_getLsbD_eq (w := 3 + 1 + 5 + 1 + 1 + 2 + 1 + 2) fun i hi => ?_)
  simp only [cFunct3, cReg, cImm16sp, cOp, regBits_regOf, BitVec.getLsbD_append, BitVec.getLsbD_extractLsb']
  interval_cases i <;> simp

theorem encodeCIW_fields (u : BitVec 16) (h : cOp u = 0b00#2) (h3 : cFunct3 u = 0b000#3) :
    encodeCIW (cPop2 u) (cImm4spn u) = .unit u := by
  unfold encodeCIW
  rw [← h, ← h3]
  refine congrArg Raw.unit (BitVec.eq_of_getLsbD_eq (w := 3 + 2 + 4 + 1 + 1 + 3 + 2) fun i hi => ?_)
  simp only [cFunct3, cPop2, cImm4spn, cOp, popBits_popOf, BitVec.getLsbD_append, BitVec.getLsbD_extractLsb']
  interval_cases i <;> simp

theorem encodeCLS_fields (u : BitVec 16) (h : cOp u = 0b00#2) :
    encodeCLS (cFunct3 u) (cPop2 u) (cPop1 u) (cUimmLw u) = .unit u := by
  unfold encodeCLS
  rw [← h]
  refine congrArg Raw.unit (BitVec.eq_of_getLsbD_eq (w := 3 + 3 + 3 + 1 + 1 + 3 + 2) fun i hi => ?_)
  simp only [cFunct3, cPop2, cPop1, cUimmLw, cOp, popBits_popOf, BitVec.getLsbD_append, BitVec.getLsbD_extractLsb']
  interval_cases i <;> simp

theorem encodeCJ_fields (u : BitVec 16) (h : cOp u = 0b01#2) : encodeCJ (cFunct3 u) (cImmJ u) = .unit u := by
  unfold encodeCJ
  rw [← h]
  refine congrArg Raw.unit (BitVec.eq_of_getLsbD_eq (w := 3 + 1 + 1 + 2 + 1 + 1 + 1 + 3 + 1 + 2) fun i hi => ?_)
  simp only [cFunct3, cImmJ, cOp, BitVec.getLsbD_append, BitVec.getLsbD_extractLsb']
  interval_cases i <;> simp

theorem encodeCB_fields (u : BitVec 16) (h : cOp u = 0b01#2) : encodeCB (cFunct3 u) (cPop1 u) (cImmB u) = .unit u := by
  unfold encodeCB
  rw [← h]
  refine congrArg Raw.unit (BitVec.eq_of_getLsbD_eq (w := 3 + 1 + 2 + 3 + 2 + 2 + 1 + 2) fun i hi => ?_)
  simp only [cFunct3, cPop1, cImmB, cOp, popBits_popOf, BitVec.getLsbD_append, BitVec.getLsbD_extractLsb']
  interval_cases i <;> simp

theorem encodeCBImm_fields (u : BitVec 16) (h : cOp u = 0b01#2) (h3 : cFunct3 u = 0b100#3) (h2 : cFunct2 u = 0b10#2) :
    encodeCBImm (cPop1 u) (cImm6 u) = .unit u := by
  unfold encodeCBImm
  rw [← h, ← h3, ← h2]
  refine congrArg Raw.unit (BitVec.eq_of_getLsbD_eq (w := 3 + 1 + 2 + 3 + 5 + 2) fun i hi => ?_)
  simp only [cFunct3, cFunct2, cPop1, cImm6, cOp, popBits_popOf, BitVec.getLsbD_append, BitVec.getLsbD_extractLsb']
  interval_cases i <;> simp

theorem encodeCR_fields (u : BitVec 16) (h : cOp u = 0b10#2) : encodeCR (cFunct4 u) (cReg u) (cReg2 u) = .unit u := by
  unfold encodeCR
  rw [← h]
  refine congrArg Raw.unit (BitVec.eq_of_getLsbD_eq (w := 4 + 5 + 5 + 2) fun i hi => ?_)
  simp only [cFunct4, cReg, cReg2, cOp, regBits_regOf, BitVec.getLsbD_append, BitVec.getLsbD_extractLsb']
  interval_cases i <;> simp

theorem encodeCSS_fields (u : BitVec 16) (h : cOp u = 0b10#2) (h3 : cFunct3 u = 0b110#3) :
    encodeCSS (cReg2 u) (cUimmSwsp u) = .unit u := by
  unfold encodeCSS
  rw [← h, ← h3]
  refine congrArg Raw.unit (BitVec.eq_of_getLsbD_eq (w := 3 + 4 + 2 + 5 + 2) fun i hi => ?_)
  simp only [cFunct3, cReg2, cUimmSwsp, cOp, regBits_regOf, BitVec.getLsbD_append, BitVec.getLsbD_extractLsb']
  interval_cases i <;> simp

/-- An immediate that ends in `n` written zeros has them. -/
theorem lowZero_append {w n : Nat} (x : BitVec w) : lowZero n (x ++ 0#n) = true := by
  simp only [lowZero, beq_iff_eq]
  refine BitVec.eq_of_getLsbD_eq fun i hi => ?_
  simp [BitVec.getLsbD_append, hi]

/-! ## Bytes -/

/-- The two bytes of a unit give the unit. -/
theorem parcelOfBytes_bytes (u : BitVec 16) : parcelOfBytes (u.extractLsb' 0 8) (u.extractLsb' 8 8) = u := by
  refine BitVec.eq_of_getLsbD_eq (w := 8 + 8) fun i hi => ?_
  simp only [parcelOfBytes, BitVec.getLsbD_append, BitVec.getLsbD_extractLsb']
  interval_cases i <;> simp

/-- The four bytes of a word give the word. -/
theorem wordOfParcels_bytes (w : BitVec 32) :
    wordOfParcels (parcelOfBytes (byteOfWord w 0) (byteOfWord w 1)) (parcelOfBytes (byteOfWord w 2) (byteOfWord w 3)) =
      w := by
  refine BitVec.eq_of_getLsbD_eq (w := 8 + 8 + (8 + 8)) fun i hi => ?_
  simp only [wordOfParcels, parcelOfBytes, byteOfWord, BitVec.getLsbD_append, BitVec.getLsbD_extractLsb']
  interval_cases i <;> simp

/-- The first parcel of a word has the word's low bits. -/
theorem firstParcel_lowBits (w : BitVec 32) :
    (parcelOfBytes (byteOfWord w 0) (byteOfWord w 1)).extractLsb' 0 2 = w.extractLsb' 0 2 := by
  refine BitVec.eq_of_getLsbD_eq fun i hi => ?_
  simp only [parcelOfBytes, byteOfWord, BitVec.getLsbD_append, BitVec.getLsbD_extractLsb']
  interval_cases i <;> simp

/-- The low bits of a parcel are those of its first byte (30_encoding.md R90). -/
theorem parcelOfBytes_lowBits (b0 b1 : Byte) : (parcelOfBytes b0 b1).extractLsb' 0 2 = b0.extractLsb' 0 2 := by
  refine BitVec.eq_of_getLsbD_eq fun i hi => ?_
  simp only [parcelOfBytes, BitVec.getLsbD_append, BitVec.getLsbD_extractLsb']
  interval_cases i <;> simp

/-- The bytes of a parcel. -/
theorem parcelOfBytes_byte0 (b0 b1 : Byte) : (parcelOfBytes b0 b1).extractLsb' 0 8 = b0 := by
  refine BitVec.eq_of_getLsbD_eq fun i hi => ?_
  simp only [parcelOfBytes, BitVec.getLsbD_append, BitVec.getLsbD_extractLsb']
  interval_cases i <;> simp

theorem parcelOfBytes_byte1 (b0 b1 : Byte) : (parcelOfBytes b0 b1).extractLsb' 8 8 = b1 := by
  refine BitVec.eq_of_getLsbD_eq fun i hi => ?_
  simp only [parcelOfBytes, BitVec.getLsbD_append, BitVec.getLsbD_extractLsb']
  interval_cases i <;> simp

/-- The bytes of a word made of two parcels. -/
theorem wordOfParcels_rawBytes (b0 b1 b2 b3 : Byte) :
    (Raw.word (wordOfParcels (parcelOfBytes b0 b1) (parcelOfBytes b2 b3))).bytes = [b0, b1, b2, b3] := by
  simp only [Raw.bytes, List.cons.injEq, and_true]
  refine ⟨?_, ?_, ?_, ?_⟩
  all_goals
    refine BitVec.eq_of_getLsbD_eq fun i hi => ?_
    simp only [byteOfWord, wordOfParcels, parcelOfBytes, BitVec.getLsbD_append, BitVec.getLsbD_extractLsb']
    interval_cases i <;> simp

end Sys2Proof
end

