-- ==== Sys2Proof/Laws/State.lean ====
section
/-! SUPPORT. One lemma per field per update of State, so that no proof unfolds a record update; and what the register and
byte reads see of each update. -/

namespace Sys2Proof.Machine

variable (s : State)

@[simp] theorem State.emit_regs (e : Event) : (s.emit e).regs = s.regs := rfl
@[simp] theorem State.emit_pc (e : Event) : (s.emit e).pc = s.pc := rfl
@[simp] theorem State.emit_mem (e : Event) : (s.emit e).mem = s.mem := rfl
@[simp] theorem State.emit_run (e : Event) : (s.emit e).run = s.run := rfl
@[simp] theorem State.emit_events (e : Event) : (s.emit e).events = s.events ++ [e] := rfl
@[simp] theorem State.emit_cfg (e : Event) : (s.emit e).cfg = s.cfg := rfl
@[simp] theorem State.readReg_emit (r : RegIdx) (e : Event) : (s.emit e).readReg r = s.readReg r := rfl
@[simp] theorem State.readByte_emit (b : Nat) (e : Event) : (s.emit e).readByte b = s.readByte b := rfl

@[simp] theorem State.setPc_regs (t : Word) : (s.setPc t).regs = s.regs := rfl
@[simp] theorem State.setPc_pc (t : Word) : (s.setPc t).pc = t := rfl
@[simp] theorem State.setPc_mem (t : Word) : (s.setPc t).mem = s.mem := rfl
@[simp] theorem State.setPc_run (t : Word) : (s.setPc t).run = s.run := rfl
@[simp] theorem State.setPc_events (t : Word) : (s.setPc t).events = s.events := rfl
@[simp] theorem State.setPc_cfg (t : Word) : (s.setPc t).cfg = s.cfg := rfl
@[simp] theorem State.readReg_setPc (r : RegIdx) (t : Word) : (s.setPc t).readReg r = s.readReg r := rfl
@[simp] theorem State.readByte_setPc (b : Nat) (t : Word) : (s.setPc t).readByte b = s.readByte b := rfl

@[simp] theorem State.advance_regs (len : Word) : (s.advance len).regs = s.regs := rfl
@[simp] theorem State.advance_pc (len : Word) : (s.advance len).pc = s.pc + len := rfl
@[simp] theorem State.advance_mem (len : Word) : (s.advance len).mem = s.mem := rfl
@[simp] theorem State.advance_run (len : Word) : (s.advance len).run = s.run := rfl
@[simp] theorem State.advance_events (len : Word) : (s.advance len).events = s.events := rfl
@[simp] theorem State.advance_cfg (len : Word) : (s.advance len).cfg = s.cfg := rfl
@[simp] theorem State.readReg_advance (r : RegIdx) (len : Word) : (s.advance len).readReg r = s.readReg r := rfl
@[simp] theorem State.readByte_advance (b : Nat) (len : Word) : (s.advance len).readByte b = s.readByte b := rfl

@[simp] theorem State.writeByte_regs (a : Nat) (v : Byte) : (s.writeByte a v).regs = s.regs := rfl
@[simp] theorem State.writeByte_pc (a : Nat) (v : Byte) : (s.writeByte a v).pc = s.pc := rfl
@[simp] theorem State.writeByte_mem (a : Nat) (v : Byte) : (s.writeByte a v).mem = s.mem.write a v := rfl
@[simp] theorem State.writeByte_run (a : Nat) (v : Byte) : (s.writeByte a v).run = s.run := rfl
@[simp] theorem State.writeByte_events (a : Nat) (v : Byte) : (s.writeByte a v).events = s.events := rfl
@[simp] theorem State.writeByte_cfg (a : Nat) (v : Byte) : (s.writeByte a v).cfg = s.cfg := rfl
@[simp] theorem State.readReg_writeByte (r : RegIdx) (a : Nat) (v : Byte) : (s.writeByte a v).readReg r = s.readReg r := rfl

@[simp] theorem State.traced_regs (raw : Raw) (i : Instr) : (s.traced raw i).regs = s.regs := rfl
@[simp] theorem State.traced_pc (raw : Raw) (i : Instr) : (s.traced raw i).pc = s.pc := rfl
@[simp] theorem State.traced_mem (raw : Raw) (i : Instr) : (s.traced raw i).mem = s.mem := rfl
@[simp] theorem State.traced_run (raw : Raw) (i : Instr) : (s.traced raw i).run = s.run := rfl
@[simp] theorem State.traced_events (raw : Raw) (i : Instr) : (s.traced raw i).events = s.events ++ [.trace s.pc raw i] := rfl
@[simp] theorem State.traced_cfg (raw : Raw) (i : Instr) : (s.traced raw i).cfg = s.cfg := rfl
@[simp] theorem State.readReg_traced (r : RegIdx) (raw : Raw) (i : Instr) : (s.traced raw i).readReg r = s.readReg r := rfl
@[simp] theorem State.readByte_traced (b : Nat) (raw : Raw) (i : Instr) : (s.traced raw i).readByte b = s.readByte b := rfl

/-! ## Setting the run state -/

@[simp] theorem State.readReg_withRun (r : RegIdx) (x : RunState) : State.readReg r { s with run := x } = s.readReg r := rfl
@[simp] theorem State.readByte_withRun (b : Nat) (x : RunState) : State.readByte b { s with run := x } = s.readByte b := rfl

/-- The answer of a fatal fault, field by field: only the run state is new (60_exceptions.md R270). -/
theorem raise_eq (f : HaltReason) : raise f s = .next { s with run := .halted f } := rfl

/-! ## Registers -/

@[simp] theorem State.readReg_zero : s.readReg 0 = 0#32 := rfl

theorem State.readReg_ne_zero {r : RegIdx} (h : r ≠ 0) : s.readReg r = s.regs[r] := by simp [State.readReg, h]

/-- Reading any register after a write: the written one gives the value unless it is register 0 (10_state.md R22). -/
theorem State.readReg_writeReg (i r : RegIdx) (v : Word) :
    (s.writeReg i v).readReg r = if r = i ∧ i ≠ 0 then v else s.readReg r := by
  by_cases hi : i = 0
  · by_cases hv : v = 0#32 <;> simp [State.writeReg, hi, hv]
  · by_cases hr : r = 0
    · have : ¬r = i := by rintro rfl; exact hi hr
      simp [State.readReg, hr, Ne.symm hi]
    · by_cases hri : r = i
      · simp [State.writeReg, State.readReg, hi, hri]
      · have : i.val ≠ r.val := fun h => hri (Fin.ext h.symm)
        simp [State.writeReg, State.readReg, hi, hr, hri, this]

@[simp] theorem State.writeReg_pc (i : RegIdx) (v : Word) : (s.writeReg i v).pc = s.pc := by
  unfold State.writeReg; split <;> (try split) <;> rfl

@[simp] theorem State.writeReg_mem (i : RegIdx) (v : Word) : (s.writeReg i v).mem = s.mem := by
  unfold State.writeReg; split <;> (try split) <;> rfl

@[simp] theorem State.writeReg_run (i : RegIdx) (v : Word) : (s.writeReg i v).run = s.run := by
  unfold State.writeReg; split <;> (try split) <;> rfl

@[simp] theorem State.writeReg_cfg (i : RegIdx) (v : Word) : (s.writeReg i v).cfg = s.cfg := by
  unfold State.writeReg; split <;> (try split) <;> rfl

@[simp] theorem State.readByte_writeReg (b : Nat) (i : RegIdx) (v : Word) :
    (s.writeReg i v).readByte b = s.readByte b := by
  simp [State.readByte]

/-- The only event of a register write: the diagnostic of a nonzero write to register 0 (60_exceptions.md R275). -/
theorem State.writeReg_events (i : RegIdx) (v : Word) :
    (s.writeReg i v).events = s.events ++ if i = 0 ∧ v ≠ 0#32 then [.x0Write v] else [] := by
  by_cases hi : i = 0 <;> by_cases hv : v = 0#32 <;> simp [State.writeReg, hi, hv]

/-- The array's slot 0 is never written. -/
@[simp] theorem State.writeReg_slot0 (i : RegIdx) (v : Word) : (s.writeReg i v).regs[0] = s.regs[0] := by
  by_cases hi : i = 0
  · by_cases hv : v = 0#32 <;> simp [State.writeReg, hi, hv]
  · have : i.val ≠ 0 := fun h => hi (Fin.ext h)
    simp [State.writeReg, hi, this]

/-! ## Register numbers -/

@[simp] theorem popular_val (f : PopIdx) : (popular f).val = 8 + f.val := rfl

/-- A popular register is never register 0. -/
@[simp] theorem popular_ne_zero (f : PopIdx) : popular f ≠ 0 := by
  intro h
  have := congrArg Fin.val h
  simp at this

end Sys2Proof.Machine
end

