-- ==== Sys2Proof/Laws/Memory.lean ====
section
/-! SUPPORT. The laws of backing memory: a write is read back, changes no other byte, and keeps the canonical form; a
canonical memory is determined by its bytes (20_memory.md R53, R54, R67). -/

namespace Sys2Proof.Machine

/-! ## The canonical form -/

theorem Memory.wfFrom_mono {m : Memory} {lo lo' : Nat} (h : lo' ≤ lo) (hm : wfFrom lo m = true) : wfFrom lo' m = true := by
  cases m with
  | nil => rfl
  | cons c rest =>
    simp only [wfFrom, Bool.and_eq_true, decide_eq_true_eq] at hm ⊢
    exact ⟨⟨by omega, hm.1.2⟩, hm.2⟩

/-- Below the first listed address every byte is the unlisted one. -/
theorem Memory.read_of_lt {m : Memory} {lo a : Nat} (hm : wfFrom lo m = true) (h : a < lo) : m.read a = unlisted := by
  induction m generalizing lo with
  | nil => rfl
  | cons c rest ih =>
    simp only [wfFrom, Bool.and_eq_true, decide_eq_true_eq] at hm
    have : c.1 ≠ a := by omega
    simp only [read, this, if_false]
    exact ih hm.2 (by omega)

theorem Memory.wfFrom_write {m : Memory} {lo a : Nat} (v : Byte) (hm : wfFrom lo m = true) (h : lo ≤ a) :
    wfFrom lo (m.write a v) = true := by
  induction m generalizing lo with
  | nil => by_cases hv : v = unlisted <;> simp [write, wfFrom, hv, h]
  | cons c rest ih =>
    simp only [wfFrom, Bool.and_eq_true, decide_eq_true_eq] at hm
    obtain ⟨⟨h1, h2⟩, h3⟩ := hm
    rcases Nat.lt_trichotomy a c.1 with hlt | heq | hgt
    · by_cases hv : v = unlisted
      · simp [write, hlt, hv, wfFrom, h1, h2, h3]
      · simp [write, hlt, hv, wfFrom, h, h2, h3]
    · subst heq
      by_cases hv : v = unlisted
      · simp only [write, Nat.lt_irrefl, if_false, if_true, hv]
        exact wfFrom_mono (by omega) h3
      · simp [write, hv, wfFrom, h1, h3]
    · have hnlt : ¬a < c.1 := by omega
      have hne : a ≠ c.1 := by omega
      simp only [write, hnlt, if_false, hne, wfFrom, Bool.and_eq_true, decide_eq_true_eq]
      exact ⟨⟨h1, h2⟩, ih h3 (by omega)⟩

/-- A write keeps the canonical form. -/
theorem Memory.wf_write {m : Memory} (a : Nat) (v : Byte) (hm : m.wf = true) : (m.write a v).wf = true :=
  wfFrom_write v hm (Nat.zero_le a)

/-- A write inside MEM_SIZE keeps memory inside MEM_SIZE. -/
theorem Memory.below_write {m : Memory} {n a : Nat} (v : Byte) (hm : below n m = true) (h : a < n) :
    below n (m.write a v) = true := by
  induction m with
  | nil => by_cases hv : v = unlisted <;> simp [write, below, hv, h]
  | cons c rest ih =>
    simp only [below, Bool.and_eq_true, decide_eq_true_eq] at hm
    unfold write
    repeat' split
    all_goals simp_all [below]

/-! ## Reading and writing -/

/-- A write changes no other byte. -/
theorem Memory.read_write_other {m : Memory} {a b : Nat} (v : Byte) (h : b ≠ a) : (m.write a v).read b = m.read b := by
  have hs : a ≠ b := h.symm
  induction m with
  | nil => by_cases hv : v = unlisted <;> simp [write, read, hv, hs]
  | cons c rest ih =>
    unfold write
    repeat' split
    all_goals simp_all [read]

/-- A write is read back, in canonical memory. -/
theorem Memory.read_write_same {m : Memory} {lo : Nat} (a : Nat) (v : Byte) (hm : wfFrom lo m = true) :
    (m.write a v).read a = v := by
  induction m generalizing lo with
  | nil => by_cases hv : v = unlisted <;> simp [write, read, hv]
  | cons c rest ih =>
    have hm' := hm
    simp only [wfFrom, Bool.and_eq_true, decide_eq_true_eq] at hm
    obtain ⟨⟨h1, h2⟩, h3⟩ := hm
    rcases Nat.lt_trichotomy a c.1 with hlt | heq | hgt
    · by_cases hv : v = unlisted
      · have hne : c.1 ≠ a := by omega
        simp only [write, hlt, if_true, hv, read, hne, if_false]
        exact read_of_lt h3 (by omega)
      · simp [write, hlt, hv, read]
    · subst heq
      by_cases hv : v = unlisted
      · simp only [write, Nat.lt_irrefl, if_false, if_true, hv]
        exact read_of_lt h3 (by omega)
      · simp [write, hv, read]
    · have hnlt : ¬a < c.1 := by omega
      have hne : ¬a = c.1 := by omega
      have hne' : ¬c.1 = a := by omega
      simp only [write, hnlt, if_false, hne, read, hne']
      exact ih h3

/-! ## The operations of State over memory -/

@[simp] theorem State.readByte_writeByte_other (s : State) {a b : Nat} (v : Byte) (h : b ≠ a) :
    (s.writeByte a v).readByte b = s.readByte b := Memory.read_write_other v h

theorem State.readByte_writeByte_same (s : State) (a : Nat) (v : Byte) (hm : s.mem.wf = true) :
    (s.writeByte a v).readByte a = v := Memory.read_write_same a v hm

@[simp] theorem State.memWrite_regs (s : State) (a n : Nat) (v : Word) : (s.memWrite a v n).regs = s.regs := by
  induction n <;> simp_all [State.memWrite]
@[simp] theorem State.memWrite_pc (s : State) (a n : Nat) (v : Word) : (s.memWrite a v n).pc = s.pc := by
  induction n <;> simp_all [State.memWrite]
@[simp] theorem State.memWrite_run (s : State) (a n : Nat) (v : Word) : (s.memWrite a v n).run = s.run := by
  induction n <;> simp_all [State.memWrite]
@[simp] theorem State.memWrite_events (s : State) (a n : Nat) (v : Word) : (s.memWrite a v n).events = s.events := by
  induction n <;> simp_all [State.memWrite]
@[simp] theorem State.memWrite_cfg (s : State) (a n : Nat) (v : Word) : (s.memWrite a v n).cfg = s.cfg := by
  induction n <;> simp_all [State.memWrite]
@[simp] theorem State.readReg_memWrite (s : State) (r : RegIdx) (a n : Nat) (v : Word) :
    (s.memWrite a v n).readReg r = s.readReg r := by
  simp [State.readReg]

/-- `MemWrite` keeps the canonical form. -/
theorem State.memWrite_wf {s : State} (a n : Nat) (v : Word) (hm : s.mem.wf = true) : (s.memWrite a v n).mem.wf = true := by
  induction n with
  | zero => exact hm
  | succ n ih => exact Memory.wf_write _ _ ih

/-- `MemWrite` inside MEM_SIZE keeps memory inside MEM_SIZE. -/
theorem State.memWrite_below {s : State} {m : Nat} (a n : Nat) (v : Word) (hm : Memory.below m s.mem = true)
    (h : a + n ≤ m) : Memory.below m (s.memWrite a v n).mem = true := by
  induction n with
  | zero => exact hm
  | succ n ih => exact Memory.below_write _ (ih (by omega)) (by omega)

/-- `MemWrite` changes no byte outside its `n` bytes. -/
theorem State.readByte_memWrite_other (s : State) (a n : Nat) (v : Word) {b : Nat} (h : b < a ∨ a + n ≤ b) :
    (s.memWrite a v n).readByte b = s.readByte b := by
  induction n with
  | zero => rfl
  | succ n ih =>
    rw [State.memWrite, State.readByte_writeByte_other _ _ (by omega)]
    exact ih (by omega)

/-- `MemWrite` stores byte `k` of the value at `a + k`. -/
theorem State.readByte_memWrite (s : State) (a n : Nat) (v : Word) {k : Nat} (hm : s.mem.wf = true) (h : k < n) :
    (s.memWrite a v n).readByte (a + k) = byteOfWord v k := by
  induction n with
  | zero => omega
  | succ n ih =>
    rw [State.memWrite]
    by_cases hk : k = n
    · subst hk
      exact State.readByte_writeByte_same _ _ _ (State.memWrite_wf _ _ _ hm)
    · rw [State.readByte_writeByte_other _ _ (by omega)]
      exact ih (by omega)

/-- The image at `base`: canonical from `base` on. -/
theorem Memory.wfFrom_ofImage (base : Nat) (image : List Byte) : wfFrom base (ofImage base image) = true := by
  induction image generalizing base with
  | nil => rfl
  | cons b rest ih =>
    unfold ofImage
    split
    · exact wfFrom_mono (by omega) (ih (base + 1))
    · simp [wfFrom, *]

/-- The image's addresses end where the image ends. -/
theorem Memory.below_ofImage (base n : Nat) (image : List Byte) (h : base + image.length ≤ n) :
    below n (ofImage base image) = true := by
  induction image generalizing base with
  | nil => rfl
  | cons b rest ih =>
    simp only [List.length_cons] at h
    unfold ofImage
    split
    · exact ih (base + 1) (by omega)
    · simp only [below, Bool.and_eq_true, decide_eq_true_eq]
      exact ⟨by omega, ih (base + 1) (by omega)⟩

end Sys2Proof.Machine
end

