-- ==== Sys2Proof/Laws/Ops.lean ====
section
/-! SUPPORT. What each shared operation can do, said once: the load-store unit by region (20_memory.md R55 to R59), the
ways an instruction ends (R149, R160, R170, R176), and the step (46_dispatch_loop.md R240). -/

namespace Sys2Proof.Machine

/-! ## Addresses -/

theorem isIo_iff_bits (a : Word) : IsIo a ↔ a.getLsbD 31 = true ∨ a.getLsbD 30 = true := by
  have h : IsIo a ↔ ¬ a &&& Config.ioMask = 0#32 := Iff.rfl
  rw [h, BitVec.eq_of_getLsbD_eq_iff]
  constructor
  · intro hn
    by_contra hc
    rw [not_or] at hc
    refine hn fun i hi => ?_
    have : i = 31 ∨ i = 30 ∨ Config.ioMask.getLsbD i = false := by
      unfold Config.ioMask
      interval_cases i <;> decide
    rcases this with rfl | rfl | h' <;> simp_all
  · rintro (h31 | h30) hall
    · have := hall 31 (by omega); simp only [BitVec.getLsbD_and, h31] at this; exact absurd this (by decide)
    · have := hall 30 (by omega); simp only [BitVec.getLsbD_and, h30] at this; exact absurd this (by decide)

/-- I/O addresses are those from 0x4000_0000 up (20_memory.md R51). -/
theorem isIo_iff (a : Word) : IsIo a ↔ 0x40000000 ≤ a.toNat := by
  rw [isIo_iff_bits, BitVec.getLsbD, BitVec.getLsbD, Nat.testBit_eq_decide_div_mod_eq, Nat.testBit_eq_decide_div_mod_eq]
  have := a.isLt
  simp only [decide_eq_true_eq]
  omega

theorem not_isIo_iff (a : Word) : ¬IsIo a ↔ a.toNat < 0x40000000 := by rw [isIo_iff]; omega

/-- Clearing the two low bits rounds down to a multiple of 4 (20_memory.md R56, R60). -/
theorem wordAlign_toNat (a : Word) : (wordAlign a).toNat = 4 * (a.toNat / 4) := by
  have h : @Eq (BitVec (30 + 2)) (wordAlign a) (a.extractLsb' 2 30 ++ 0#2) := by
    refine BitVec.eq_of_getLsbD_eq fun i hi => ?_
    simp only [wordAlign, BitVec.getLsbD_and, BitVec.getLsbD_append, BitVec.getLsbD_extractLsb']
    interval_cases i <;> simp
  have h' := congrArg BitVec.toNat h
  rw [BitVec.toNat_append] at h'
  have := a.isLt
  simp only [BitVec.extractLsb'_toNat, BitVec.toNat_ofNat, Nat.shiftRight_eq_div_pow, Nat.shiftLeft_eq] at h'
  norm_num at h'
  omega

/-- The two low bits are zero exactly at a multiple of 4. -/
theorem lowBits_eq_zero_iff (a : Word) : a.extractLsb' 0 2 = 0#2 ↔ a.toNat % 4 = 0 := by
  rw [← BitVec.toNat_inj]
  simp

theorem odd_iff (a : Word) : a.getLsbD 0 = true ↔ a.toNat % 2 = 1 := by
  rw [BitVec.getLsbD, Nat.testBit_zero, decide_eq_true_eq]

/-! ## The load-store unit -/

theorem State.fetch16_ok (s : State) (a : Word) (h : a.toNat + 2 ≤ s.cfg.memSize) :
    s.fetch16 a = .ok (s.memRead16 a.toNat) := by simp [State.fetch16, InMemory, h]

theorem State.fetch16_error (s : State) (a : Word) (h : s.cfg.memSize < a.toNat + 2) :
    s.fetch16 a = .error (.fetchOutOfRange a) := by
  have : ¬a.toNat + 2 ≤ s.cfg.memSize := by omega
  simp [State.fetch16, InMemory, this]

theorem State.loadWord_io (s : State) (a : Word) (h : 0x40000000 ≤ a.toNat) :
    s.loadWord a = .ok (0#32, s.emit (.ioLoad a)) := by
  simp only [State.loadWord, if_pos ((isIo_iff a).2 h)]

theorem State.loadWord_memory (s : State) (a : Word) (h : a.toNat < 0x40000000)
    (hm : 4 * (a.toNat / 4) + 4 ≤ s.cfg.memSize) : s.loadWord a = .ok (s.memRead32 (4 * (a.toNat / 4)), s) := by
  rw [State.loadWord, if_neg ((not_isIo_iff a).2 h), wordAlign_toNat, if_pos (by exact hm)]

theorem State.loadWord_error (s : State) (a : Word) (h : a.toNat < 0x40000000)
    (hm : s.cfg.memSize < 4 * (a.toNat / 4) + 4) : s.loadWord a = .error (.loadOutOfRange a) := by
  rw [State.loadWord, if_neg ((not_isIo_iff a).2 h), wordAlign_toNat, if_neg (by unfold InMemory; omega)]

theorem State.loadByte_io (s : State) (a : Word) (h : 0x40000000 ≤ a.toNat) :
    s.loadByte a = .ok (0#8, s.emit (.ioLoad a)) := by
  simp only [State.loadByte, if_pos ((isIo_iff a).2 h)]

theorem State.loadByte_memory (s : State) (a : Word) (h : a.toNat < 0x40000000) (hm : a.toNat + 1 ≤ s.cfg.memSize) :
    s.loadByte a = .ok (s.readByte a.toNat, s) := by
  rw [State.loadByte, if_neg ((not_isIo_iff a).2 h), if_pos (by exact hm)]

theorem State.loadByte_error (s : State) (a : Word) (h : a.toNat < 0x40000000) (hm : s.cfg.memSize < a.toNat + 1) :
    s.loadByte a = .error (.loadOutOfRange a) := by
  rw [State.loadByte, if_neg ((not_isIo_iff a).2 h), if_neg (by unfold InMemory; omega)]

theorem State.storeWord_io (s : State) (a v : Word) (h : 0x40000000 ≤ a.toNat) :
    s.storeWord a v = .ok (s.emit (.ioStore a v)) := by
  simp only [State.storeWord, if_pos ((isIo_iff a).2 h)]

theorem State.storeWord_bound (s : State) (a v : Word) (hb : 65532 < a.toNat) (h : a.toNat < 0x40000000) :
    s.storeWord a v = .error (.storeBound a) := by
  rw [State.storeWord, if_neg ((not_isIo_iff a).2 h), if_pos (by exact hb)]

theorem State.storeWord_memory (s : State) (a v : Word) (hb : a.toNat ≤ 65532)
    (hm : 4 * (a.toNat / 4) + 4 ≤ s.cfg.memSize) : s.storeWord a v = .ok (s.memWrite32 (4 * (a.toNat / 4)) v) := by
  rw [State.storeWord, if_neg ((not_isIo_iff a).2 (by omega)), if_neg (by unfold Config.storeBound; omega),
    wordAlign_toNat, if_pos (by exact hm)]

theorem State.storeWord_error (s : State) (a v : Word) (hb : a.toNat ≤ 65532)
    (hm : s.cfg.memSize < 4 * (a.toNat / 4) + 4) : s.storeWord a v = .error (.storeOutOfRange a) := by
  rw [State.storeWord, if_neg ((not_isIo_iff a).2 (by omega)), if_neg (by unfold Config.storeBound; omega),
    wordAlign_toNat, if_neg (by unfold InMemory; omega)]

theorem State.storeAt_ok (s : State) (a' a v : Word) (h : a'.toNat + 4 ≤ s.cfg.memSize) :
    s.storeAt a' a v = .ok (s.memWrite32 a'.toNat v) := by
  rw [State.storeAt, if_pos (by exact h)]

theorem State.storeAt_error (s : State) (a' a v : Word) (h : s.cfg.memSize < a'.toNat + 4) :
    s.storeAt a' a v = .error (.storeOutOfRange a) := by
  rw [State.storeAt, if_neg (by unfold InMemory; omega)]

theorem State.storeDirect_exact (s : State) (a v : Word) (h : a.toNat % 4 = 0 ∨ s.cfg.swspMisalign = .exact) :
    s.storeDirect a v = s.storeAt a a v := by
  by_cases ha : a.extractLsb' 0 2 = 0#2
  · simp only [State.storeDirect, if_pos ha]
  · have : s.cfg.swspMisalign = .exact := h.resolve_left fun h4 => ha ((lowBits_eq_zero_iff a).2 h4)
    simp only [State.storeDirect, if_neg ha, this]

theorem State.storeDirect_fault (s : State) (a v : Word) (h : a.toNat % 4 ≠ 0) (hc : s.cfg.swspMisalign = .fault) :
    s.storeDirect a v = .error (.swspMisaligned a) := by
  simp only [State.storeDirect, if_neg (fun h' => h ((lowBits_eq_zero_iff a).1 h')), hc]

theorem State.storeDirect_mask (s : State) (a v : Word) (h : a.toNat % 4 ≠ 0) (hc : s.cfg.swspMisalign = .mask) :
    s.storeDirect a v = s.storeAt (wordAlign a) a v := by
  simp only [State.storeDirect, if_neg (fun h' => h ((lowBits_eq_zero_iff a).1 h')), hc]

/-! ### What an access can answer -/

/-- A routed word load: an I/O load, a load from memory, or a range fault. -/
theorem State.loadWord_cases (s : State) (a : Word) :
    s.loadWord a = .ok (0#32, s.emit (.ioLoad a)) ∨ s.loadWord a = .ok (s.memRead32 (wordAlign a).toNat, s) ∨
      s.loadWord a = .error (.loadOutOfRange a) := by
  unfold State.loadWord
  split
  · exact .inl rfl
  · split
    · exact .inr (.inl rfl)
    · exact .inr (.inr rfl)

/-- A routed byte load: an I/O load, a load from memory, or a range fault. -/
theorem State.loadByte_cases (s : State) (a : Word) :
    s.loadByte a = .ok (0#8, s.emit (.ioLoad a)) ∨ s.loadByte a = .ok (s.readByte a.toNat, s) ∨
      s.loadByte a = .error (.loadOutOfRange a) := by
  unfold State.loadByte
  split
  · exact .inl rfl
  · split
    · exact .inr (.inl rfl)
    · exact .inr (.inr rfl)

/-- A routed store: dropped, above the bound, done inside memory, or out of range. -/
theorem State.storeWord_cases (s : State) (a v : Word) :
    s.storeWord a v = .ok (s.emit (.ioStore a v)) ∨ s.storeWord a v = .error (.storeBound a) ∨
      (s.storeWord a v = .ok (s.memWrite32 (wordAlign a).toNat v) ∧ (wordAlign a).toNat + 4 ≤ s.cfg.memSize) ∨
      s.storeWord a v = .error (.storeOutOfRange a) := by
  unfold State.storeWord
  split
  · exact .inl rfl
  · split
    · exact .inr (.inl rfl)
    · split
      · exact .inr (.inr (.inl ⟨rfl, ‹_›⟩))
      · exact .inr (.inr (.inr rfl))

/-- A direct store: done inside memory at some address, misaligned, or out of range. -/
theorem State.storeDirect_cases (s : State) (a v : Word) :
    (∃ n, s.storeDirect a v = .ok (s.memWrite32 n v) ∧ n + 4 ≤ s.cfg.memSize) ∨
      s.storeDirect a v = .error (.swspMisaligned a) ∨ s.storeDirect a v = .error (.storeOutOfRange a) := by
  have at_cases : ∀ a' : Word, (∃ n, s.storeAt a' a v = .ok (s.memWrite32 n v) ∧ n + 4 ≤ s.cfg.memSize) ∨
      s.storeAt a' a v = .error (.storeOutOfRange a) := by
    intro a'
    unfold State.storeAt
    split
    · exact .inl ⟨_, rfl, ‹_›⟩
    · exact .inr rfl
  unfold State.storeDirect
  split
  · rcases at_cases a with h | h <;> simp [h]
  · split
    · exact .inr (.inl rfl)
    · rcases at_cases a with h | h <;> simp [h]
    · rcases at_cases (wordAlign a) with h | h <;> simp [h]

/-! ## How an instruction ends -/

/-- `x[rd] <- v; pc <- pc + len` says all of `WritesRegister`. -/
theorem writeBack_writes (rd : RegIdx) (v len : Word) (s : State) :
    ∃ t, writeBack rd v len s = .next t ∧ WritesRegister s t rd v (s.pc + len) [] := by
  refine ⟨_, rfl, ?_, ?_, ?_, ?_, ?_, ?_, ?_⟩
  · by_cases h : rd = 0 <;> simp [State.readReg_writeReg, h]
  · intro r hr
    simp [State.readReg_writeReg, hr]
  all_goals simp [State.writeReg_events, x0Diag]

/-- `x[rd] <- pc + len; pc <- pc + imm` says all of `WritesRegister`. -/
theorem jumpAndLink_writes (rd : RegIdx) (imm len : Word) (s : State) :
    ∃ t, jumpAndLink rd imm len s = .next t ∧ WritesRegister s t rd (s.pc + len) (s.pc + imm) [] := by
  refine ⟨_, rfl, ?_, ?_, ?_, ?_, ?_, ?_, ?_⟩
  · by_cases h : rd = 0 <;> simp [State.readReg_writeReg, h]
  · intro r hr
    simp [State.readReg_writeReg, hr]
  all_goals simp [State.writeReg_events, x0Diag]

/-- Setting pc changes nothing else. -/
theorem setPc_moves (t : Word) (s : State) : MovesPc s (s.setPc t) t [] :=
  ⟨fun _ => rfl, rfl, fun _ => rfl, rfl, rfl, by simp⟩

/-- A branch moves only the pc. -/
theorem branch_moves (cond : Bool) (imm len : Word) (s : State) :
    ∃ t, branch cond imm len s = .next t ∧ MovesPc s t (if cond then s.pc + imm else s.pc + len) [] :=
  ⟨_, rfl, setPc_moves _ s⟩

/-- A word written to memory, with pc advanced, says all of `StoresWord`. -/
theorem memWrite32_stores (s : State) (a : Nat) (v len : Word) (hm : s.mem.wf = true) :
    StoresWord s ((s.memWrite32 a v).advance len) a v (s.pc + len) := by
  refine ⟨fun k hk => ?_, fun b hb => ?_, fun r => ?_, ?_, ?_, ?_, ?_⟩
  · exact State.readByte_memWrite s a 4 v hm hk
  · exact State.readByte_memWrite_other s a 4 v hb
  all_goals simp [State.memWrite32]

/-- Only memory differs after a raw write. -/
theorem State.memWrite_eq (s : State) (a n : Nat) (v : Word) :
    s.memWrite a v n = { s with mem := (s.memWrite a v n).mem } := by
  have key : ∀ t : State, t.regs = s.regs → t.pc = s.pc → t.run = s.run → t.events = s.events → t.cfg = s.cfg →
      t = { s with mem := t.mem } := by
    rintro ⟨⟩ h1 h2 h3 h4 h5
    simp_all
  exact key _ (by simp) (by simp) (by simp) (by simp) (by simp)

/-- A loaded word is read back after it was written. -/
theorem State.memRead32_memWrite32 (s : State) (a : Nat) (v : Word) (hm : s.mem.wf = true) :
    (s.memWrite32 a v).memRead32 a = v := by
  have h := fun k (hk : k < 4) => State.readByte_memWrite s a 4 v hm hk
  have h0 := h 0 (by omega)
  rw [Nat.add_zero] at h0
  simp only [State.memRead32, State.memWrite32]
  rw [h0, h 1 (by omega), h 2 (by omega), h 3 (by omega)]
  refine BitVec.eq_of_getLsbD_eq (w := 8 + 8 + 8 + 8) fun i hi => ?_
  simp only [wordOfBytes, byteOfWord, BitVec.getLsbD_append, BitVec.getLsbD_extractLsb']
  interval_cases i <;> simp

end Sys2Proof.Machine
end

