-- ==== Sys2Proof/Laws/PerInstr.lean ====
section
/-! SUPPORT. Statements made per instruction, over its syntax. Family `EncodingClass`: the encoding of an instruction is a
word or unit of a row of the opcode map that has the instruction's mnemonic (30_encoding.md R98, R110). -/

namespace Sys2Proof.Laws.EncodingClass

open Sys2Proof.Machine

/-- The raw encoding matches a row of the opcode map with the instruction's mnemonic. -/
def Statement (i : Instr) : Prop :=
  match encode i with
  | .word w => ∃ m k, (mnemonic i, m, k) ∈ standardRows ∧ w &&& k = m
  | .unit u => ∃ m k, (mnemonic i, m, k) ∈ compressedRows ∧ u &&& k = m

/-! ## The masked fields of each format -/

theorem maskR (f7 : BitVec 7) (rs2 rs1 rd : BitVec 5) (f3 : BitVec 3) (op : BitVec 7) :
    @Eq (BitVec (7 + 5 + 5 + 3 + 5 + 7)) ((f7 ++ rs2 ++ rs1 ++ f3 ++ rd ++ op) &&& 0xFE00707F#32)
      (f7 ++ 0#5 ++ 0#5 ++ f3 ++ 0#5 ++ op) := by
  refine BitVec.eq_of_getLsbD_eq fun i hi => ?_
  simp only [BitVec.getLsbD_and, BitVec.getLsbD_append]
  interval_cases i <;> simp

theorem maskI (imm : BitVec 12) (rs1 rd : BitVec 5) (f3 : BitVec 3) (op : BitVec 7) :
    @Eq (BitVec (12 + 5 + 3 + 5 + 7)) ((imm ++ rs1 ++ f3 ++ rd ++ op) &&& 0x0000707F#32)
      (0#12 ++ 0#5 ++ f3 ++ 0#5 ++ op) := by
  refine BitVec.eq_of_getLsbD_eq fun i hi => ?_
  simp only [BitVec.getLsbD_and, BitVec.getLsbD_append]
  interval_cases i <;> simp

theorem maskS (h7 : BitVec 7) (rs2 rs1 l5 : BitVec 5) (f3 : BitVec 3) (op : BitVec 7) :
    @Eq (BitVec (7 + 5 + 5 + 3 + 5 + 7)) ((h7 ++ rs2 ++ rs1 ++ f3 ++ l5 ++ op) &&& 0x0000707F#32)
      (0#7 ++ 0#5 ++ 0#5 ++ f3 ++ 0#5 ++ op) := by
  refine BitVec.eq_of_getLsbD_eq fun i hi => ?_
  simp only [BitVec.getLsbD_and, BitVec.getLsbD_append]
  interval_cases i <;> simp

theorem maskB (i12 i11 : BitVec 1) (h6 : BitVec 6) (rs2 rs1 : BitVec 5) (l4 : BitVec 4) (f3 : BitVec 3) (op : BitVec 7) :
    @Eq (BitVec (1 + 6 + 5 + 5 + 3 + 4 + 1 + 7)) ((i12 ++ h6 ++ rs2 ++ rs1 ++ f3 ++ l4 ++ i11 ++ op) &&& 0x0000707F#32)
      (0#1 ++ 0#6 ++ 0#5 ++ 0#5 ++ f3 ++ 0#4 ++ 0#1 ++ op) := by
  refine BitVec.eq_of_getLsbD_eq fun i hi => ?_
  simp only [BitVec.getLsbD_and, BitVec.getLsbD_append]
  interval_cases i <;> simp

theorem maskU (imm : BitVec 20) (rd : BitVec 5) (op : BitVec 7) :
    @Eq (BitVec (20 + 5 + 7)) ((imm ++ rd ++ op) &&& 0x0000007F#32)
      (0#20 ++ 0#5 ++ op) := by
  refine BitVec.eq_of_getLsbD_eq fun i hi => ?_
  simp only [BitVec.getLsbD_and, BitVec.getLsbD_append]
  interval_cases i <;> simp

theorem maskJ (a b : BitVec 1) (c : BitVec 10) (d : BitVec 8) (rd : BitVec 5) (op : BitVec 7) :
    @Eq (BitVec (1 + 10 + 1 + 8 + 5 + 7)) ((a ++ c ++ b ++ d ++ rd ++ op) &&& 0x0000007F#32)
      (0#1 ++ 0#10 ++ 0#1 ++ 0#8 ++ 0#5 ++ op) := by
  refine BitVec.eq_of_getLsbD_eq fun i hi => ?_
  simp only [BitVec.getLsbD_and, BitVec.getLsbD_append]
  interval_cases i <;> simp

/-! ## One lemma per instruction -/

theorem lui (rd : RegIdx) (imm20 : BitVec 20) : Statement (.lui rd imm20) := by
  refine ⟨0x00000037#32, 0x0000007F#32, by simp [mnemonic, standardRows], (maskU _ _ _).trans ?_⟩
  decide

theorem auipc (rd : RegIdx) (imm20 : BitVec 20) : Statement (.auipc rd imm20) := by
  refine ⟨0x00000017#32, 0x0000007F#32, by simp [mnemonic, standardRows], (maskU _ _ _).trans ?_⟩
  decide

theorem jal (rd : RegIdx) (imm : BitVec 21) : Statement (.jal rd imm) := by
  refine ⟨0x0000006F#32, 0x0000007F#32, by simp [mnemonic, standardRows], (maskJ _ _ _ _ _ _).trans ?_⟩
  decide

theorem bne (rs1 rs2 : RegIdx) (imm : BitVec 13) : Statement (.bne rs1 rs2 imm) := by
  refine ⟨0x00001063#32, 0x0000707F#32, by simp [mnemonic, standardRows], (maskB _ _ _ _ _ _ _ _).trans ?_⟩
  decide

theorem blt (rs1 rs2 : RegIdx) (imm : BitVec 13) : Statement (.blt rs1 rs2 imm) := by
  refine ⟨0x00004063#32, 0x0000707F#32, by simp [mnemonic, standardRows], (maskB _ _ _ _ _ _ _ _).trans ?_⟩
  decide

theorem bge (rs1 rs2 : RegIdx) (imm : BitVec 13) : Statement (.bge rs1 rs2 imm) := by
  refine ⟨0x00005063#32, 0x0000707F#32, by simp [mnemonic, standardRows], (maskB _ _ _ _ _ _ _ _).trans ?_⟩
  decide

theorem bltu (rs1 rs2 : RegIdx) (imm : BitVec 13) : Statement (.bltu rs1 rs2 imm) := by
  refine ⟨0x00006063#32, 0x0000707F#32, by simp [mnemonic, standardRows], (maskB _ _ _ _ _ _ _ _).trans ?_⟩
  decide

theorem bgeu (rs1 rs2 : RegIdx) (imm : BitVec 13) : Statement (.bgeu rs1 rs2 imm) := by
  refine ⟨0x00007063#32, 0x0000707F#32, by simp [mnemonic, standardRows], (maskB _ _ _ _ _ _ _ _).trans ?_⟩
  decide

theorem lw (rd rs1 : RegIdx) (imm : BitVec 12) : Statement (.lw rd rs1 imm) := by
  refine ⟨0x00002003#32, 0x0000707F#32, by simp [mnemonic, standardRows], (maskI _ _ _ _ _).trans ?_⟩
  decide

theorem lbu (rd rs1 : RegIdx) (imm : BitVec 12) : Statement (.lbu rd rs1 imm) := by
  refine ⟨0x00004003#32, 0x0000707F#32, by simp [mnemonic, standardRows], (maskI _ _ _ _ _).trans ?_⟩
  decide

theorem sw (rs2 rs1 : RegIdx) (imm : BitVec 12) : Statement (.sw rs2 rs1 imm) := by
  refine ⟨0x00002023#32, 0x0000707F#32, by simp [mnemonic, standardRows], (maskS _ _ _ _ _ _).trans ?_⟩
  decide

theorem addi (rd rs1 : RegIdx) (imm : BitVec 12) : Statement (.addi rd rs1 imm) := by
  refine ⟨0x00000013#32, 0x0000707F#32, by simp [mnemonic, standardRows], (maskI _ _ _ _ _).trans ?_⟩
  decide

theorem andi (rd rs1 : RegIdx) (imm : BitVec 12) : Statement (.andi rd rs1 imm) := by
  refine ⟨0x00007013#32, 0x0000707F#32, by simp [mnemonic, standardRows], (maskI _ _ _ _ _).trans ?_⟩
  decide

theorem add (rd rs1 rs2 : RegIdx) : Statement (.add rd rs1 rs2) := by
  refine ⟨0x00000033#32, 0xFE00707F#32, by simp [mnemonic, standardRows], (maskR _ _ _ _ _ _).trans ?_⟩
  decide

theorem sub (rd rs1 rs2 : RegIdx) : Statement (.sub rd rs1 rs2) := by
  refine ⟨0x40000033#32, 0xFE00707F#32, by simp [mnemonic, standardRows], (maskR _ _ _ _ _ _).trans ?_⟩
  decide

theorem xor (rd rs1 rs2 : RegIdx) : Statement (.xor rd rs1 rs2) := by
  refine ⟨0x00004033#32, 0xFE00707F#32, by simp [mnemonic, standardRows], (maskR _ _ _ _ _ _).trans ?_⟩
  decide

theorem cAddi4spn (rd : PopIdx) (imm : BitVec 10) : Statement (.cAddi4spn rd imm) := by
  refine ⟨0x0000#16, 0xE003#16, by simp [mnemonic, compressedRows],
    BitVec.eq_of_getLsbD_eq (w := 3 + 2 + 4 + 1 + 1 + 3 + 2) fun i hi => ?_⟩
  simp only [BitVec.getLsbD_and, BitVec.getLsbD_append]
  interval_cases i <;> simp

theorem cLw (rd rs1 : PopIdx) (uimm : BitVec 7) : Statement (.cLw rd rs1 uimm) := by
  refine ⟨0x4000#16, 0xE003#16, by simp [mnemonic, compressedRows],
    BitVec.eq_of_getLsbD_eq (w := 3 + 3 + 3 + 1 + 1 + 3 + 2) fun i hi => ?_⟩
  simp only [BitVec.getLsbD_and, BitVec.getLsbD_append]
  interval_cases i <;> simp

theorem cSw (rs2 rs1 : PopIdx) (uimm : BitVec 7) : Statement (.cSw rs2 rs1 uimm) := by
  refine ⟨0xC000#16, 0xE003#16, by simp [mnemonic, compressedRows],
    BitVec.eq_of_getLsbD_eq (w := 3 + 3 + 3 + 1 + 1 + 3 + 2) fun i hi => ?_⟩
  simp only [BitVec.getLsbD_and, BitVec.getLsbD_append]
  interval_cases i <;> simp

theorem cAddi (rd : RegIdx) (imm : BitVec 6) : Statement (.cAddi rd imm) := by
  refine ⟨0x0001#16, 0xE003#16, by simp [mnemonic, compressedRows],
    BitVec.eq_of_getLsbD_eq (w := 3 + 1 + 5 + 5 + 2) fun i hi => ?_⟩
  simp only [BitVec.getLsbD_and, BitVec.getLsbD_append]
  interval_cases i <;> simp

theorem cJal (imm : BitVec 12) : Statement (.cJal imm) := by
  refine ⟨0x2001#16, 0xE003#16, by simp [mnemonic, compressedRows],
    BitVec.eq_of_getLsbD_eq (w := 3 + 1 + 1 + 2 + 1 + 1 + 1 + 3 + 1 + 2) fun i hi => ?_⟩
  simp only [BitVec.getLsbD_and, BitVec.getLsbD_append]
  interval_cases i <;> simp

theorem cLi (rd : RegIdx) (imm : BitVec 6) : Statement (.cLi rd imm) := by
  refine ⟨0x4001#16, 0xE003#16, by simp [mnemonic, compressedRows],
    BitVec.eq_of_getLsbD_eq (w := 3 + 1 + 5 + 5 + 2) fun i hi => ?_⟩
  simp only [BitVec.getLsbD_and, BitVec.getLsbD_append]
  interval_cases i <;> simp

theorem cAddi16spField0 (imm : BitVec 10) : Statement (.cAddi16spField0 imm) := by
  refine ⟨0x6001#16, 0xEF83#16, by simp [mnemonic, compressedRows],
    BitVec.eq_of_getLsbD_eq (w := 3 + 1 + 5 + 1 + 1 + 2 + 1 + 2) fun i hi => ?_⟩
  simp only [BitVec.getLsbD_and, BitVec.getLsbD_append]
  interval_cases i <;> simp

theorem cAddi16spField2 (imm : BitVec 10) : Statement (.cAddi16spField2 imm) := by
  refine ⟨0x6101#16, 0xEF83#16, by simp [mnemonic, compressedRows],
    BitVec.eq_of_getLsbD_eq (w := 3 + 1 + 5 + 1 + 1 + 2 + 1 + 2) fun i hi => ?_⟩
  simp only [BitVec.getLsbD_and, BitVec.getLsbD_append]
  interval_cases i <;> simp

theorem cLui (rd : RegIdx) (imm6 : BitVec 6) : Statement (.cLui rd imm6) := by
  refine ⟨0x6001#16, 0xE003#16, by simp [mnemonic, compressedRows],
    BitVec.eq_of_getLsbD_eq (w := 3 + 1 + 5 + 5 + 2) fun i hi => ?_⟩
  simp only [BitVec.getLsbD_and, BitVec.getLsbD_append]
  interval_cases i <;> simp

theorem cAndi (rd : PopIdx) (imm : BitVec 6) : Statement (.cAndi rd imm) := by
  refine ⟨0x8801#16, 0xEC03#16, by simp [mnemonic, compressedRows],
    BitVec.eq_of_getLsbD_eq (w := 3 + 1 + 2 + 3 + 5 + 2) fun i hi => ?_⟩
  simp only [BitVec.getLsbD_and, BitVec.getLsbD_append]
  interval_cases i <;> simp

theorem cJ (imm : BitVec 12) : Statement (.cJ imm) := by
  refine ⟨0xA001#16, 0xE003#16, by simp [mnemonic, compressedRows],
    BitVec.eq_of_getLsbD_eq (w := 3 + 1 + 1 + 2 + 1 + 1 + 1 + 3 + 1 + 2) fun i hi => ?_⟩
  simp only [BitVec.getLsbD_and, BitVec.getLsbD_append]
  interval_cases i <;> simp

theorem cBeqz (rs1 : PopIdx) (imm : BitVec 9) : Statement (.cBeqz rs1 imm) := by
  refine ⟨0xC001#16, 0xE003#16, by simp [mnemonic, compressedRows],
    BitVec.eq_of_getLsbD_eq (w := 3 + 1 + 2 + 3 + 2 + 2 + 1 + 2) fun i hi => ?_⟩
  simp only [BitVec.getLsbD_and, BitVec.getLsbD_append]
  interval_cases i <;> simp

theorem cBnez (rs1 : PopIdx) (imm : BitVec 9) : Statement (.cBnez rs1 imm) := by
  refine ⟨0xE001#16, 0xE003#16, by simp [mnemonic, compressedRows],
    BitVec.eq_of_getLsbD_eq (w := 3 + 1 + 2 + 3 + 2 + 2 + 1 + 2) fun i hi => ?_⟩
  simp only [BitVec.getLsbD_and, BitVec.getLsbD_append]
  interval_cases i <;> simp

theorem cJr (rs1 : RegIdx) : Statement (.cJr rs1) := by
  refine ⟨0x8002#16, 0xF07F#16, by simp [mnemonic, compressedRows],
    BitVec.eq_of_getLsbD_eq (w := 4 + 5 + 5 + 2) fun i hi => ?_⟩
  simp only [BitVec.getLsbD_and, BitVec.getLsbD_append]
  interval_cases i <;> simp [regBits]

theorem cMv (rd rs2 : RegIdx) : Statement (.cMv rd rs2) := by
  refine ⟨0x8002#16, 0xF003#16, by simp [mnemonic, compressedRows],
    BitVec.eq_of_getLsbD_eq (w := 4 + 5 + 5 + 2) fun i hi => ?_⟩
  simp only [BitVec.getLsbD_and, BitVec.getLsbD_append]
  interval_cases i <;> simp

theorem cAdd (rd rs2 : RegIdx) : Statement (.cAdd rd rs2) := by
  refine ⟨0x9002#16, 0xF003#16, by simp [mnemonic, compressedRows],
    BitVec.eq_of_getLsbD_eq (w := 4 + 5 + 5 + 2) fun i hi => ?_⟩
  simp only [BitVec.getLsbD_and, BitVec.getLsbD_append]
  interval_cases i <;> simp

theorem cSwsp (rs2 : RegIdx) (uimm : BitVec 8) : Statement (.cSwsp rs2 uimm) := by
  refine ⟨0xC002#16, 0xE003#16, by simp [mnemonic, compressedRows],
    BitVec.eq_of_getLsbD_eq (w := 3 + 4 + 2 + 5 + 2) fun i hi => ?_⟩
  simp only [BitVec.getLsbD_and, BitVec.getLsbD_append]
  interval_cases i <;> simp

end Sys2Proof.Laws.EncodingClass
end

