-- ==== Sys2Proof/Laws/Step.lean ====
section
/-! SUPPORT. What an instruction can do and what a step can do, each said once (46_dispatch_loop.md R240, R249, R250;
60_exceptions.md R270). -/

namespace Sys2Proof.Machine

/-! ## The shapes of an instruction's answer -/

/-- An instruction's answer has one of six shapes: a register write, an I/O load of zero, a pc write, a
dropped I/O store, a word stored inside backing memory, or a fatal fault raised at the state itself. -/
inductive Shape (s : State) : Result → Prop where
  | register (rd : RegIdx) (v p : Word) : Shape s (.next ((s.writeReg rd v).setPc p))
  | ioLoad (a : Word) (rd : RegIdx) (p : Word) : Shape s (.next (((s.emit (.ioLoad a)).writeReg rd 0#32).setPc p))
  | pc (p : Word) : Shape s (.next (s.setPc p))
  | ioStore (a v p : Word) : Shape s (.next ((s.emit (.ioStore a v)).setPc p))
  | store (n : Nat) (v p : Word) (h : n + 4 ≤ s.cfg.memSize) : Shape s (.next ((s.memWrite32 n v).setPc p))
  | halt (f : HaltReason) : Shape s (raise f s)

theorem shape_writeBack (rd : RegIdx) (v len : Word) (s : State) : Shape s (writeBack rd v len s) :=
  .register rd v _

theorem shape_loadWordInto (rd : RegIdx) (ea len : Word) (s : State) : Shape s (loadWordInto rd ea len s) := by
  unfold loadWordInto
  rcases s.loadWord_cases ea with h | h | h <;> rw [h]
  · exact .ioLoad ea rd _
  · exact .register rd _ _
  · exact .halt _

theorem shape_loadByteInto (rd : RegIdx) (ea len : Word) (s : State) : Shape s (loadByteInto rd ea len s) := by
  unfold loadByteInto
  rcases s.loadByte_cases ea with h | h | h <;> rw [h]
  · exact .ioLoad ea rd _
  · exact .register rd _ _
  · exact .halt _

theorem shape_storeWord (a v len : Word) (s : State) : Shape s (finishStore len (s.storeWord a v) s) := by
  rcases s.storeWord_cases a v with h | h | ⟨h, hm⟩ | h <;> rw [h]
  · exact .ioStore a v _
  · exact .halt _
  · exact .store _ v _ hm
  · exact .halt _

theorem shape_storeDirect (a v len : Word) (s : State) : Shape s (finishStore len (s.storeDirect a v) s) := by
  rcases s.storeDirect_cases a v with ⟨n, h, hm⟩ | h | h <;> rw [h]
  · exact .store n v _ hm
  · exact .halt _
  · exact .halt _

theorem shape_branch (c : Bool) (imm len : Word) (s : State) : Shape s (branch c imm len s) := .pc _

theorem shape_jumpAndLink (rd : RegIdx) (imm len : Word) (s : State) : Shape s (jumpAndLink rd imm len s) :=
  .register rd _ _

/-- Every instruction's answer has one of the shapes. -/
theorem exec_shape (i : Instr) (s : State) : Shape s (exec i s) := by
  cases i
  case jal => exact shape_jumpAndLink ..
  case bne => exact shape_branch ..
  case blt => exact shape_branch ..
  case bge => exact shape_branch ..
  case bltu => exact shape_branch ..
  case bgeu => exact shape_branch ..
  case lw => exact shape_loadWordInto ..
  case lbu => exact shape_loadByteInto ..
  case sw => exact shape_storeWord ..
  case cLw => exact shape_loadWordInto ..
  case cSw => exact shape_storeWord ..
  case cJal => exact shape_jumpAndLink ..
  case cJ => exact .pc _
  case cBeqz => exact shape_branch ..
  case cBnez => exact shape_branch ..
  case cJr => exact .pc _
  case cSwsp => exact shape_storeDirect ..
  all_goals exact shape_writeBack ..

/-- Every instruction has a next state. -/
theorem exec_next (i : Instr) (s : State) : ∃ t, exec i s = .next t := by
  have h := exec_shape i s
  generalize exec i s = r at h
  cases h <;> exact ⟨_, rfl⟩

/-! ## The step -/

/-- What a step can do: nothing, when halted; halt before execution; execute one instruction, and keep its effect or only its
reason to halt. -/
theorem step_cases {s : State} {r : Result} (h : step s = r) :
    (∃ f, s.run = .halted f ∧ r = .next s) ∨
    (∃ f, s.run = .running ∧ s.fetchDecode = .error f ∧ r = raise f s) ∨
    (∃ raw i, s.run = .running ∧ s.fetchDecode = .ok (raw, i) ∧ r = commit s (exec i (s.traced raw i))) := by
  unfold step at h
  split at h
  · exact .inl ⟨_, ‹_›, h.symm⟩
  · split at h
    · exact .inr (.inl ⟨_, ‹_›, ‹_›, h.symm⟩)
    · exact .inr (.inr ⟨_, _, ‹_›, ‹_›, h.symm⟩)

theorem commit_running {s t : State} (h : t.run = .running) : commit s (.next t) = .next t := by
  simp only [commit, h]

theorem commit_halted {s t : State} {f : HaltReason} (h : t.run = .halted f) : commit s (.next t) = raise f s := by
  simp only [commit, h]

theorem commit_raise (s u : State) (f : HaltReason) : commit s (raise f u) = raise f s := commit_halted rfl

end Sys2Proof.Machine
end

