-- ==== Sys2Proof/Tests/Slice0.lean ====
section
/-! SUPPORT. Tests. Expected results come from spec/: the encodings of 30_encoding.md R91 to R110, the vectors of
95_test_vectors.md. Then the witnesses: for every obligation with hypotheses a concrete state and operands that meet them, one
for each clause, at a boundary value. -/

namespace Sys2Proof.Tests

open Sys2Proof.Machine

/-! ## WellFormed: one ill-formed term for each check, refused -/

theorem test_wf_refuses_jal_odd : (.jal 1 3#21 : Instr).wf = false := by decide
theorem test_wf_refuses_bne_odd : (.bne 1 2 1#13 : Instr).wf = false := by decide
theorem test_wf_refuses_blt_odd : (.blt 1 2 1#13 : Instr).wf = false := by decide
theorem test_wf_refuses_bge_odd : (.bge 1 2 1#13 : Instr).wf = false := by decide
theorem test_wf_refuses_bltu_odd : (.bltu 1 2 1#13 : Instr).wf = false := by decide
theorem test_wf_refuses_bgeu_odd : (.bgeu 1 2 1#13 : Instr).wf = false := by decide
theorem test_wf_refuses_cAddi4spn_unscaled : (.cAddi4spn 2 6#10 : Instr).wf = false := by decide
theorem test_wf_refuses_cAddi4spn_zero_unit : (.cAddi4spn 0 0#10 : Instr).wf = false := by decide
theorem test_wf_refuses_cLw_unscaled : (.cLw 0 0 2#7 : Instr).wf = false := by decide
theorem test_wf_refuses_cSw_unscaled : (.cSw 0 0 1#7 : Instr).wf = false := by decide
theorem test_wf_refuses_cJal_odd : (.cJal 1#12 : Instr).wf = false := by decide
theorem test_wf_refuses_cAddi16spField0_unscaled : (.cAddi16spField0 8#10 : Instr).wf = false := by decide
theorem test_wf_refuses_cAddi16spField2_unscaled : (.cAddi16spField2 8#10 : Instr).wf = false := by decide
theorem test_wf_refuses_cLui_field0 : (.cLui 0 1#6 : Instr).wf = false := by decide
theorem test_wf_refuses_cLui_field2 : (.cLui 2 1#6 : Instr).wf = false := by decide
theorem test_wf_refuses_cJ_odd : (.cJ 1#12 : Instr).wf = false := by decide
theorem test_wf_refuses_cBeqz_odd : (.cBeqz 0 1#9 : Instr).wf = false := by decide
theorem test_wf_refuses_cBnez_odd : (.cBnez 0 1#9 : Instr).wf = false := by decide
theorem test_wf_refuses_cMv_rd0 : (.cMv 0 1 : Instr).wf = false := by decide
theorem test_wf_refuses_cMv_rs0 : (.cMv 1 0 : Instr).wf = false := by decide
theorem test_wf_refuses_cAdd_rd0 : (.cAdd 0 1 : Instr).wf = false := by decide
theorem test_wf_refuses_cAdd_rs0 : (.cAdd 1 0 : Instr).wf = false := by decide
theorem test_wf_refuses_cSwsp_unscaled : (.cSwsp 1 2#8 : Instr).wf = false := by decide

/-! ## Decoding: for every constructor a word written out from the fields of its row -/

theorem test_decode_lui : decodeTableWord 32 0b00010010001101000101_00101_0110111 = some (.lui 5 0x12345#20) := by decide
theorem test_decode_auipc : decodeTableWord 32 0b00000000000000000001_00110_0010111 = some (.auipc 6 1#20) := by decide
theorem test_decode_jal : decodeTableWord 32 0b1_1111110000_1_11111111_00001_1101111 = some (.jal 1 0x1FFFE0#21) := by decide
theorem test_decode_bne : decodeTableWord 32 0b0_000000_00111_00110_001_1000_0_1100011 = some (.bne 6 7 16#13) := by decide
theorem test_decode_blt : decodeTableWord 32 0b0_000000_00111_00110_100_1000_0_1100011 = some (.blt 6 7 16#13) := by decide
theorem test_decode_bge : decodeTableWord 32 0b1_000000_00111_00110_101_0000_0_1100011 = some (.bge 6 7 0x1000#13) := by decide
theorem test_decode_bltu : decodeTableWord 32 0b0_000000_00111_00110_110_0000_1_1100011 = some (.bltu 6 7 0x800#13) := by decide
theorem test_decode_bgeu : decodeTableWord 32 0b0_100000_00111_00110_111_0000_0_1100011 = some (.bgeu 6 7 0x400#13) := by decide
theorem test_decode_lw : decodeTableWord 32 0b111111111100_00110_010_00101_0000011 = some (.lw 5 6 0xFFC#12) := by decide
theorem test_decode_lbu : decodeTableWord 32 0b000000000011_00110_100_00101_0000011 = some (.lbu 5 6 3#12) := by decide
theorem test_decode_sw : decodeTableWord 32 0b1111111_00111_00110_010_11100_0100011 = some (.sw 7 6 0xFFC#12) := by decide
theorem test_decode_addi : decodeTableWord 32 0b000110011010_00000_000_00101_0010011 = some (.addi 5 0 410#12) := by decide
theorem test_decode_andi : decodeTableWord 32 0b111111110000_00110_111_00101_0010011 = some (.andi 5 6 0xFF0#12) := by decide
theorem test_decode_add : decodeTableWord 32 0b0000000_00111_00110_000_00101_0110011 = some (.add 5 6 7) := by decide
theorem test_decode_sub : decodeTableWord 32 0b0100000_00111_00110_000_00101_0110011 = some (.sub 5 6 7) := by decide
theorem test_decode_xor : decodeTableWord 32 0b0000000_00111_00110_100_00101_0110011 = some (.xor 5 6 7) := by decide
theorem test_decode_cAddi4spn : decodeTableWord 16 0b000_00_0000_0_1_010_00 = some (.cAddi4spn 2 8#10) := by decide
theorem test_decode_cLw : decodeTableWord 16 0b010_000_011_1_0_010_00 = some (.cLw 2 3 4#7) := by decide
theorem test_decode_cSw : decodeTableWord 16 0b110_111_001_1_1_000_00 = some (.cSw 0 1 124#7) := by decide
theorem test_decode_cAddi : decodeTableWord 16 0b000_1_01010_11111_01 = some (.cAddi 10 0x3F#6) := by decide
theorem test_decode_cJal : decodeTableWord 16 0b001_1_0_11_1_1_1_000_1_01 = some (.cJal 0xFE0#12) := by decide
theorem test_decode_cLi : decodeTableWord 16 0b010_0_00010_10000_01 = some (.cLi 2 16#6) := by decide
theorem test_decode_cAddi16spField0 : decodeTableWord 16 0b011_0_00000_0_0_00_1_01 = some (.cAddi16spField0 32#10) := by decide
theorem test_decode_cAddi16spField2 : decodeTableWord 16 0b011_1_00010_1_1_11_1_01 = some (.cAddi16spField2 0x3F0#10) := by decide
theorem test_decode_cLui : decodeTableWord 16 0b011_1_01010_11111_01 = some (.cLui 10 0x3F#6) := by decide
theorem test_decode_cAndi : decodeTableWord 16 0b100_1_10_010_10000_01 = some (.cAndi 2 0x30#6) := by decide
theorem test_decode_cJ : decodeTableWord 16 0b101_0_0_00_0_0_0_100_0_01 = some (.cJ 8#12) := by decide
theorem test_decode_cBeqz : decodeTableWord 16 0b110_0_10_000_00_00_0_01 = some (.cBeqz 0 16#9) := by decide
theorem test_decode_cBnez : decodeTableWord 16 0b111_1_11_111_11_01_1_01 = some (.cBnez 7 0x1FA#9) := by decide
theorem test_decode_cJr : decodeTableWord 16 0b1000_00001_00000_10 = some (.cJr 1) := by decide
theorem test_decode_cMv : decodeTableWord 16 0b1000_01010_01011_10 = some (.cMv 10 11) := by decide
theorem test_decode_cAdd : decodeTableWord 16 0b1001_01010_01011_10 = some (.cAdd 10 11) := by decide
theorem test_decode_cSwsp : decodeTableWord 16 0b110_1111_11_01010_10 = some (.cSwsp 10 252#8) := by decide

/-- The encodings of absent instructions are rejected by name (30_encoding.md R112, R113; MUL, and C.JALR x10). -/
theorem test_decode_rejects_mul :
    decode [0xB3#8, 0x02#8, 0x73#8, 0x02#8] = .invalidInstruction 0x027302B3#32 := by decide
theorem test_decode_rejects_cJalr : decode [0x02#8, 0x95#8] = .invalidCompressed 0x9502#16 := by decide
theorem test_decode_rejects_zero : decode [0x00#8, 0x00#8] = .invalidCompressed 0x0000#16 := by decide
theorem test_decode_truncated : decode [0x13#8, 0x05#8, 0x50#8] = .truncated := by decide

/-! ## One step on a small state -/

/-- 256 bytes of memory and the recommended SWSP_MISALIGN, the conventions of 95_test_vectors.md. -/
def small : Config := ⟨0x100, .fault⟩

/-- A running machine with `raw` at `pc`, the listed registers and the listed memory words; the rest as after reset. -/
def start (c : Config) (pc : Word) (raw : Raw) (regs : List (RegIdx × Word)) (words : List (Nat × Word)) : State :=
  let s0 : State := { State.reset with pc := pc, cfg := c }
  let s1 := regs.foldl (fun s p => s.writeReg p.1 p.2) s0
  let s2 := words.foldl (fun s p => s.memWrite32 p.1 p.2) s1
  match raw with
  | .unit u => s2.memWrite pc.toNat (u.setWidth 32) 2
  | .word v => s2.memWrite32 pc.toNat v

/-- The state after one step. -/
def after (s : State) : State :=
  match step s with
  | .next t => t
  | .fault _ => s
  | .refused _ => s

/-- The diagnostics of one step: its events but for the trace event. -/
def diags (s : State) : List Event := (after s).events.drop 1

theorem test_lui : let s := start small 0#32 (.word 0xFFFFF2B7#32) [(5, 0xABCDEF01#32)] []
    (after s).readReg 5 = 0xFFFFF000#32 ∧
    (after s).pc = 4#32 := by decide
theorem test_lui_x0 : let s := start small 0#32 (.word 0x00001037#32) [] []
    (after s).readReg 0 = 0#32 ∧
    diags s = [.x0Write 0x1000#32] := by decide
theorem test_auipc : let s := start small 0x10#32 (.word 0xFFFFF317#32) [] []
    (after s).readReg 6 = 0xFFFFF010#32 ∧
    (after s).pc = 0x14#32 := by decide
theorem test_jal_back : let s := start small 0x20#32 (.word 0xFE1FF0EF#32) [] []
    (after s).readReg 1 = 0x24#32 ∧
    (after s).pc = 0#32 := by decide
theorem test_jal_x0 : let s := start small 0x20#32 (.word 0x0060006F#32) [] []
    (after s).pc = 0x26#32 ∧
    diags s = [.x0Write 0x24#32] := by decide
theorem test_bne_wraps : let s := start small 0x20#32 (.word 0xFC031EE3#32) [(6, 1#32)] []
    (after s).pc = 0xFFFFFFFC#32 := by decide
theorem test_bne_equal : let s := start small 0x20#32 (.word 0x00731863#32) [(6, 5#32), (7, 5#32)] []
    (after s).pc = 0x24#32 := by decide
theorem test_blt_signed : let s := start small 0x20#32 (.word 0x00734863#32) [(6, 0x80000000#32), (7, 0x7FFFFFFF#32)] []
    (after s).pc = 0x30#32 := by decide
theorem test_blt_equal : let s := start small 0x20#32 (.word 0x00734863#32) [(6, 5#32), (7, 5#32)] []
    (after s).pc = 0x24#32 := by decide
theorem test_bge_signed : let s := start small 0x20#32 (.word 0x00735863#32) [(6, 0xFFFFFFFF#32), (7, 0#32)] []
    (after s).pc = 0x24#32 := by decide
theorem test_bge_equal : let s := start small 0x20#32 (.word 0x00735863#32) [(6, 5#32), (7, 5#32)] []
    (after s).pc = 0x30#32 := by decide
theorem test_bltu_unsigned : let s := start small 0x20#32 (.word 0x00736863#32) [(6, 0x80000000#32), (7, 0x7FFFFFFF#32)] []
    (after s).pc = 0x24#32 := by decide
theorem test_bltu_less : let s := start small 0x20#32 (.word 0x00736863#32) [(6, 0#32), (7, 0xFFFFFFFF#32)] []
    (after s).pc = 0x30#32 := by decide
theorem test_bgeu_unsigned : let s := start small 0x20#32 (.word 0x00737863#32) [(6, 0xFFFFFFFF#32), (7, 0#32)] []
    (after s).pc = 0x30#32 := by decide
theorem test_bgeu_less : let s := start small 0x20#32 (.word 0x00737863#32) [(6, 0#32), (7, 0xFFFFFFFF#32)] []
    (after s).pc = 0x24#32 := by decide
theorem test_lw_masks_the_address : let s := start small 0#32 (.word 0x00332283#32) [(6, 0x48#32)] [(0x48, 0xDEADBEEF#32), (0x4C, 0x11223344#32)]
    (after s).readReg 5 = 0xDEADBEEF#32 ∧
    (after s).pc = 4#32 := by decide
theorem test_lw_io : let s := start small 0#32 (.word 0xFFC02283#32) [(5, 9#32)] [(0x48, 0xDEADBEEF#32), (0x4C, 0x11223344#32)]
    (after s).readReg 5 = 0#32 ∧
    diags s = [.ioLoad 0xFFFFFFFC#32] := by decide
theorem test_lbu_byte : let s := start small 0#32 (.word 0x00134283#32) [(6, 0x48#32)] [(0x48, 0xDEADBEEF#32), (0x4C, 0x11223344#32)]
    (after s).readReg 5 = 0xBE#32 ∧
    (after s).pc = 4#32 := by decide
theorem test_lbu_out_of_range : let s := start small 0#32 (.word 0x00034283#32) [(5, 9#32), (6, 0x100#32)] [(0x48, 0xDEADBEEF#32), (0x4C, 0x11223344#32)]
    (after s).readReg 5 = 9#32 ∧
    (after s).run = .halted (.loadOutOfRange 0x100#32) ∧
    (after s).pc = 0#32 := by decide
theorem test_sw_masks_the_address : let s := start small 0#32 (.word 0x00732123#32) [(6, 0x48#32), (7, 0xCAFEF00D#32)] [(0x48, 0xDEADBEEF#32), (0x4C, 0x11223344#32)]
    (after s).memRead32 0x48 = 0xCAFEF00D#32 ∧
    (after s).memRead32 0x4C = 0x11223344#32 := by decide
theorem test_sw_bound : let s := start small 0#32 (.word 0x00732023#32) [(6, 0x3FFFFFFF#32), (7, 1#32)] []
    (after s).run = .halted (.storeBound 0x3FFFFFFF#32) ∧
    (after s).pc = 0#32 := by decide
theorem test_addi_wraps : let s := start small 0#32 (.word 0x00128293#32) [(5, 0xFFFFFFFF#32)] []
    (after s).readReg 5 = 0#32 ∧
    (after s).pc = 4#32 := by decide
theorem test_addi_negative : let s := start small 0#32 (.word 0x80030293#32) [(5, 9#32), (6, 0x800#32)] []
    (after s).readReg 5 = 0#32 := by decide
theorem test_andi_sign_extends : let s := start small 0#32 (.word 0xFF037293#32) [(6, 0x12345678#32)] []
    (after s).readReg 5 = 0x12345670#32 ∧
    (after s).pc = 4#32 := by decide
theorem test_add_wraps : let s := start small 0#32 (.word 0x007302B3#32) [(6, 0xFFFFFFFF#32), (7, 2#32)] []
    (after s).readReg 5 = 1#32 ∧
    (after s).pc = 4#32 := by decide
theorem test_sub_order : let s := start small 0#32 (.word 0x407302B3#32) [(6, 3#32), (7, 5#32)] []
    (after s).readReg 5 = 0xFFFFFFFE#32 ∧
    (after s).pc = 4#32 := by decide
theorem test_xor : let s := start small 0#32 (.word 0x007342B3#32) [(6, 0xFF00FF00#32), (7, 0x0FF00FF0#32)] []
    (after s).readReg 5 = 0xF0F0F0F0#32 ∧
    (after s).pc = 4#32 := by decide
theorem test_cAddi4spn_adds_the_old_value : let s := start small 0#32 (.unit 0x0028#16) [(2, 0x100#32), (10, 0x1000#32)] []
    (after s).readReg 10 = 0x1108#32 ∧
    (after s).pc = 2#32 := by decide
theorem test_cAddi4spn_negative : let s := start small 0#32 (.unit 0x041C#16) [(2, 0x1000#32)] []
    (after s).readReg 15 = 0xE00#32 := by decide
theorem test_cLw : let s := start small 0#32 (.unit 0x41C8#16) [(11, 0x44#32)] [(0x48, 0xDEADBEEF#32), (0x4C, 0x11223344#32)]
    (after s).readReg 10 = 0xDEADBEEF#32 ∧
    (after s).pc = 2#32 := by decide
theorem test_cLw_same_register : let s := start small 0#32 (.unit 0x4108#16) [(10, 0x48#32)] [(0x48, 0x0000004C#32)]
    (after s).readReg 10 = 0x4C#32 := by decide
theorem test_cSw : let s := start small 0#32 (.unit 0xDCE0#16) [(8, 0xA1B2C3D4#32), (9, 4#32)] []
    (after s).memRead32 0x80 = 0xA1B2C3D4#32 ∧
    (after s).pc = 2#32 := by decide
theorem test_cSw_io : let s := start small 0#32 (.unit 0xC188#16) [(10, 0x11223344#32), (11, 0x80000000#32)] []
    diags s = [.ioStore 0x80000000#32 0x11223344#32] := by decide
theorem test_cAddi : let s := start small 0#32 (.unit 0x157D#16) [] []
    (after s).readReg 10 = 0xFFFFFFFF#32 ∧
    (after s).pc = 2#32 := by decide
theorem test_cAddi_x0 : let s := start small 0#32 (.unit 0x0015#16) [] []
    (after s).readReg 0 = 0#32 ∧
    diags s = [.x0Write 5#32] := by decide
theorem test_cJal : let s := start small 0x20#32 (.unit 0x37C5#16) [] []
    (after s).readReg 1 = 0x22#32 ∧
    (after s).pc = 0#32 := by decide
theorem test_cLi : let s := start small 0#32 (.unit 0x557D#16) [] []
    (after s).readReg 10 = 0xFFFFFFFF#32 ∧
    (after s).pc = 2#32 := by decide
theorem test_cAddi16spField0_writes_x2 : let s := start small 0#32 (.unit 0x6005#16) [(2, 0x1000#32)] []
    (after s).readReg 2 = 0x1020#32 ∧
    diags s = [] := by decide
theorem test_cAddi16spField2 : let s := start small 0#32 (.unit 0x717D#16) [] []
    (after s).readReg 2 = 0xFFFFFFF0#32 ∧
    (after s).pc = 2#32 := by decide
theorem test_cLui_negative : let s := start small 0#32 (.unit 0x7501#16) [] []
    (after s).readReg 10 = 0xFFFE0000#32 ∧
    (after s).pc = 2#32 := by decide
theorem test_cAndi : let s := start small 0#32 (.unit 0x9941#16) [(10, 0x12345678#32)] []
    (after s).readReg 10 = 0x12345670#32 ∧
    (after s).pc = 2#32 := by decide
theorem test_cJ : let s := start small 0x20#32 (.unit 0xBFF9#16) [(1, 0x99#32)] []
    (after s).readReg 1 = 0x99#32 ∧
    (after s).pc = 0xFFFFFFFE#32 := by decide
theorem test_cBeqz_taken : let s := start small 0x20#32 (.unit 0xC801#16) [] []
    (after s).pc = 0x30#32 := by decide
theorem test_cBeqz_top_bit : let s := start small 0x20#32 (.unit 0xC801#16) [(8, 0x80000000#32)] []
    (after s).pc = 0x22#32 := by decide
theorem test_cBnez_top_bit : let s := start small 0x20#32 (.unit 0xFFED#16) [(15, 0x80000000#32)] []
    (after s).pc = 0x1A#32 := by decide
theorem test_cBnez_zero : let s := start small 0x20#32 (.unit 0xFFED#16) [] []
    (after s).pc = 0x22#32 := by decide
theorem test_cJr_odd : let s := start small 0#32 (.unit 0x8502#16) [(10, 0x41#32)] []
    (after s).pc = 0x41#32 := by decide
theorem test_cMv : let s := start small 0#32 (.unit 0x8F86#16) [(1, 0xFFFFFFFF#32)] []
    (after s).readReg 31 = 0xFFFFFFFF#32 ∧
    (after s).pc = 2#32 := by decide
theorem test_cAdd : let s := start small 0#32 (.unit 0x952A#16) [(10, 0x80000001#32)] []
    (after s).readReg 10 = 2#32 ∧
    (after s).pc = 2#32 := by decide
theorem test_cSwsp_misaligned : let s := start small 0#32 (.unit 0xC22A#16) [(2, 0x42#32), (10, 0xA1B2C3D4#32)] []
    (after s).run = .halted (.swspMisaligned 0x46#32) ∧
    (after s).pc = 0#32 := by decide
theorem test_cSwsp_mask : let s := start ⟨0x100, .mask⟩ 0#32 (.unit 0xC22A#16) [(2, 0x42#32), (10, 0xA1B2C3D4#32)] []
    (after s).memRead32 0x44 = 0xA1B2C3D4#32 ∧
    (after s).pc = 2#32 := by decide

/-! ## The step itself -/

theorem test_step_at_2_mod_4 : let s := start small 0x42#32 (.word 0x19A00293#32) [] []
    (after s).readReg 5 = 0x19A#32 ∧
    (after s).pc = 0x46#32 := by decide
theorem test_step_odd_pc : let s := start small 0x41#32 (.unit 0x0001#16) [] []
    (after s).run = .halted (.oddPc 0x41#32) ∧
    (after s).pc = 0x41#32 := by decide
theorem test_step_second_parcel_missing : let s := start small 0xFE#32 (.unit 0x0013#16) [] []
    (after s).run = .halted (.fetchOutOfRange 0x100#32) ∧
    (after s).pc = 0xFE#32 := by decide
theorem test_step_invalid_unit : let s := start small 0#32 (.unit 0x8105#16) [(10, 4#32)] []
    (after s).run = .halted (.invalidCompressed 0#32 0x8105#16 1#2 4#3 8#4) ∧
    (after s).events = [] := by decide
theorem test_step_trace : (after (start small 0#32 (.word 0x19A00293#32) [] [])).events =
    [.trace 0#32 (.word 0x19A00293#32) (.addi 5 0 410#12)] := by decide
/-- From reset with nothing placed, the first step halts on the all-zero unit (95_test_vectors.md S3; log 6). -/
theorem test_step_reset : (after State.reset).run = .halted (.invalidCompressed 0#32 0#16 0#2 0#3 0#4) := by decide
/-- The host's placing (log 14): the next step runs the placed instruction. -/
theorem test_step_withFetchWord : (after (State.reset.withFetchWord 32 0x19A00293)).readReg 5 = 0x19A#32 := by decide
/-- Assembler text (30_encoding.md R119). -/
theorem test_asmText : asmText (.lw 5 6 0xFFC#12) = "LW x5, -4(x6)" := by decide
/-- The expansion of `LI x5, 0x12345FFF` (30_encoding.md R120): the upper part is rounded up. -/
theorem test_pseudo_li : (Pseudo.li 5 0x12345FFF#32).expand = [.lui 5 0x12346#20, .addi 5 5 0xFFF#12] := by decide

/-! ## Witnesses: the hypotheses of every obligation are met, clause by clause, at boundary values -/

/-- No program, the listed registers, no listed memory. -/
def regsOnly (c : Config) (regs : List (RegIdx × Word)) : State := start c 0#32 (.unit 0#16) regs []

/-- 4 GiB of memory with a standard word at 0xFFFF_FFFE: its parcels lie in the last two bytes and in the first two. -/
def wrapping (w : Word) : State :=
  let s : State := { State.reset with pc := 0xFFFFFFFE#32, cfg := ⟨2 ^ 32, .fault⟩ }
  (s.memWrite 0xFFFFFFFE w 2).memWrite 0 (w >>> 16) 2

/-- 64 KiB, and the two other settings of SWSP_MISALIGN on 256 bytes. -/
def large : Config := ⟨0x10000, .fault⟩
def exact : Config := ⟨0x100, .exact⟩
def mask : Config := ⟨0x100, .mask⟩

theorem witness_ResetLoadsTheImage :
    ([0x13#8] : List Byte).length ≤ (⟨1, .fault⟩ : Config).memSize ∧ 0 < ([0x13#8] : List Byte).length ∧
    ([0x13#8] : List Byte).length ≤ 1 := by decide
theorem witness_ResetMeetsTheInvariant : (⟨2 ^ 32, .mask⟩ : Config).wf = true := by decide
theorem witness_RegisterWriteLaw :
    (31 : RegIdx) ≠ 0 ∧ (0 : RegIdx) ≠ 31 ∧ ((0 : RegIdx) = 0 ∧ 1#32 ≠ 0#32) ∧ ((0 : RegIdx) = 0 ∧ 0#32 = 0#32) := by decide
theorem witness_MemWriteStoresItsBytes :
    State.reset.mem.wf = true ∧ 4 ≤ 4 ∧ 3 < 4 ∧ (0x47 < 0x48 ∨ 0x48 + 4 ≤ 0x47) ∧ (0x4C < 0x48 ∨ 0x48 + 4 ≤ 0x4C) := by
  decide
theorem witness_CanonicalMemoryIsDeterminedByItsBytes :
    let m : Memory := [(0, 1#8), (0xFF, 2#8)]
    m.wf = true ∧ m.wf = true ∧ ∀ a, m.read a = m.read a := ⟨by decide, by decide, fun _ => rfl⟩
theorem witness_MixedWidthAccessesSeeTheStoredWord :
    let s := regsOnly small []
    s.mem.wf = true ∧ (0xFC#32).toNat % 4 = 0 ∧ (0xFC#32).toNat + 4 ≤ s.cfg.memSize ∧ (0xFC#32).toNat < 0x40000000 ∧ 3 < 4 := by
  decide

/-! ### The access primitives -/

theorem witness_Fetch16ReadsMemoryOrFaults :
    let s := regsOnly small []
    (0xFE#32).toNat + 2 ≤ s.cfg.memSize ∧ s.cfg.memSize < (0xFF#32).toNat + 2 := by decide
theorem witness_LoadsByRegion_word :
    let s := regsOnly small []
    0x40000000 ≤ (0x40000000#32).toNat ∧
    ((0xFF#32).toNat < 0x40000000 ∧ 4 * ((0xFF#32).toNat / 4) + 4 ≤ s.cfg.memSize) ∧
    ((0x100#32).toNat < 0x40000000 ∧ s.cfg.memSize < 4 * ((0x100#32).toNat / 4) + 4) ∧
    ((0x3FFFFFFF#32).toNat < 0x40000000 ∧ s.cfg.memSize < 4 * ((0x3FFFFFFF#32).toNat / 4) + 4) := by decide
theorem witness_LoadsByRegion_byte :
    let s := regsOnly small []
    0x40000000 ≤ (0x40000000#32).toNat ∧
    ((0xFF#32).toNat < 0x40000000 ∧ (0xFF#32).toNat + 1 ≤ s.cfg.memSize) ∧
    ((0x100#32).toNat < 0x40000000 ∧ s.cfg.memSize < (0x100#32).toNat + 1) := by decide
theorem witness_StoreWordByRegion :
    let s := regsOnly large []
    let t := regsOnly ⟨0xFFFF, .fault⟩ []
    0x40000000 ≤ (0x40000000#32).toNat ∧
    (65532 < (0xFFFD#32).toNat ∧ (0xFFFD#32).toNat < 0x40000000) ∧
    (65532 < (0x3FFFFFFF#32).toNat ∧ (0x3FFFFFFF#32).toNat < 0x40000000) ∧
    ((0xFFFC#32).toNat ≤ 65532 ∧ 4 * ((0xFFFC#32).toNat / 4) + 4 ≤ s.cfg.memSize) ∧
    ((0xFFFC#32).toNat ≤ 65532 ∧ t.cfg.memSize < 4 * ((0xFFFC#32).toNat / 4) + 4) := by decide
theorem witness_StoreDirectByMode :
    let s := regsOnly small []
    let e := regsOnly exact []
    let m := regsOnly mask []
    (((0xFC#32).toNat % 4 = 0 ∨ s.cfg.swspMisalign = .exact) ∧ (0xFC#32).toNat + 4 ≤ s.cfg.memSize) ∧
    (((0xFB#32).toNat % 4 = 0 ∨ e.cfg.swspMisalign = .exact) ∧ (0xFB#32).toNat + 4 ≤ e.cfg.memSize) ∧
    (((0x100#32).toNat % 4 = 0 ∨ s.cfg.swspMisalign = .exact) ∧ s.cfg.memSize < (0x100#32).toNat + 4) ∧
    (((0xFD#32).toNat % 4 = 0 ∨ e.cfg.swspMisalign = .exact) ∧ e.cfg.memSize < (0xFD#32).toNat + 4) ∧
    ((0xFD#32).toNat % 4 ≠ 0 ∧ s.cfg.swspMisalign = .fault) ∧
    ((0xFF#32).toNat % 4 ≠ 0 ∧ m.cfg.swspMisalign = .mask ∧ 4 * ((0xFF#32).toNat / 4) + 4 ≤ m.cfg.memSize) ∧
    ((0x101#32).toNat % 4 ≠ 0 ∧ m.cfg.swspMisalign = .mask ∧ m.cfg.memSize < 4 * ((0x101#32).toNat / 4) + 4) := by decide
theorem witness_StoreIsVisibleToALoadOfTheSameWord :
    let s := regsOnly small []
    s.mem.wf = true ∧ (0xFC#32).toNat < 0x40000000 ∧ (∃ t, s.storeWord 0xFC#32 1#32 = .ok t) ∧
    (0xFC#32).toNat / 4 = (0xFF#32).toNat / 4 := ⟨by decide, by decide, ⟨_, rfl⟩, by decide⟩

/-! ### The encodings: for every row a word that matches it, the free bits set -/

theorem witness_LuiAndAuipcWriteTheUpperImmediate :
    0xFFFFFFB7#32 &&& 0x0000007F#32 = 0x00000037#32 ∧ 0xFFFFFF97#32 &&& 0x0000007F#32 = 0x00000017#32 := by decide
theorem witness_AddiAndAndiResult :
    0xFFFF8F93#32 &&& 0x0000707F#32 = 0x00000013#32 ∧ 0xFFFFFF93#32 &&& 0x0000707F#32 = 0x00007013#32 := by decide
theorem witness_AddSubXorResult :
    0x01FF8FB3#32 &&& 0xFE00707F#32 = 0x00000033#32 ∧ 0x41FF8FB3#32 &&& 0xFE00707F#32 = 0x40000033#32 ∧
    0x01FFCFB3#32 &&& 0xFE00707F#32 = 0x00004033#32 ∧
    (0x027302B3#32 &&& 0x0000707F#32 = 0x00000033#32 ∧ (0x027302B3#32).extractLsb' 25 7 ≠ 0x00#7 ∧
      (0x027302B3#32).extractLsb' 25 7 ≠ 0x20#7) ∧
    (0x407342B3#32 &&& 0x0000707F#32 = 0x00004033#32 ∧ (0x407342B3#32).extractLsb' 25 7 ≠ 0x00#7) := by decide
theorem witness_LbuByRegion_encoding : 0xFFFFCF83#32 &&& 0x0000707F#32 = 0x00004003#32 := by decide
theorem witness_LwByRegion_encoding : 0xFFFFAF83#32 &&& 0x0000707F#32 = 0x00002003#32 := by decide
theorem witness_SwByRegion_encoding : 0xFFFFAFA3#32 &&& 0x0000707F#32 = 0x00002023#32 := by decide
theorem witness_BranchesCompareAndMoveOnlyThePc :
    0xFFFF9FE3#32 &&& 0x0000707F#32 = 0x00001063#32 ∧ 0xFFFFCFE3#32 &&& 0x0000707F#32 = 0x00004063#32 ∧
    0xFFFFDFE3#32 &&& 0x0000707F#32 = 0x00005063#32 ∧ 0xFFFFEFE3#32 &&& 0x0000707F#32 = 0x00006063#32 ∧
    0xFFFFFFE3#32 &&& 0x0000707F#32 = 0x00007063#32 := by decide
theorem witness_JalLinksAndJumps : 0xFFFFFFEF#32 &&& 0x0000007F#32 = 0x0000006F#32 := by decide
theorem witness_CAddi4spnResult : 0x0004#16 &&& 0xE003#16 = 0x0000#16 ∧ 0x0004#16 ≠ 0x0000#16 := by decide
theorem witness_CAddiAndCLiResult :
    0x1FFD#16 &&& 0xE003#16 = 0x0001#16 ∧ 0x5FFD#16 &&& 0xE003#16 = 0x4001#16 := by decide
theorem witness_CAddi16spAdjustsX2 :
    0x707D#16 &&& 0xEF83#16 = 0x6001#16 ∧ 0x717D#16 &&& 0xEF83#16 = 0x6101#16 := by decide
theorem witness_CLuiWritesTheUpperImmediate :
    (0x6081#16 &&& 0xE003#16 = 0x6001#16 ∧ (0x6081#16).extractLsb' 7 5 ≠ 0#5 ∧ (0x6081#16).extractLsb' 7 5 ≠ 2#5) ∧
    (0x7FFD#16 &&& 0xE003#16 = 0x6001#16 ∧ (0x7FFD#16).extractLsb' 7 5 ≠ 0#5 ∧ (0x7FFD#16).extractLsb' 7 5 ≠ 2#5) := by
  decide
theorem witness_CAndiResult :
    0x9BFD#16 &&& 0xEC03#16 = 0x8801#16 ∧
    (0x8D0D#16 &&& 0xE003#16 = 0x8001#16 ∧ (0x8D0D#16).extractLsb' 10 2 ≠ 2#2) := by decide
theorem witness_CMvAndCAddResult :
    (0x8086#16 &&& 0xF003#16 = 0x8002#16 ∧ ((0x8086#16).extractLsb' 7 5).toFin ≠ 0 ∧
      ((0x8086#16).extractLsb' 2 5).toFin ≠ 0) ∧
    (0x802E#16 &&& 0xF003#16 = 0x8002#16 ∧ ((0x802E#16).extractLsb' 7 5).toFin = 0 ∧
      ((0x802E#16).extractLsb' 2 5).toFin ≠ 0) ∧
    (0x9086#16 &&& 0xF003#16 = 0x9002#16 ∧ ((0x9086#16).extractLsb' 7 5).toFin ≠ 0 ∧
      ((0x9086#16).extractLsb' 2 5).toFin ≠ 0) ∧
    (0x902E#16 &&& 0xF003#16 = 0x9002#16 ∧ ((0x902E#16).extractLsb' 7 5).toFin = 0) ∧
    (0x9502#16 &&& 0xF003#16 = 0x9002#16 ∧ ((0x9502#16).extractLsb' 2 5).toFin = 0) := by decide
theorem witness_CLwByRegion_encoding : 0x5FFC#16 &&& 0xE003#16 = 0x4000#16 := by decide
theorem witness_CSwByRegion_encoding : 0xDFFC#16 &&& 0xE003#16 = 0xC000#16 := by decide
theorem witness_CSwspStoresDirectly_encoding : 0xDFFE#16 &&& 0xE003#16 = 0xC002#16 := by decide
theorem witness_CJalAndCJJump :
    0x3FFD#16 &&& 0xE003#16 = 0x2001#16 ∧ 0xBFFD#16 &&& 0xE003#16 = 0xA001#16 := by decide
theorem witness_CBeqzAndCBnezTestARegister :
    0xDFFD#16 &&& 0xE003#16 = 0xC001#16 ∧ 0xFFFD#16 &&& 0xE003#16 = 0xE001#16 := by decide
theorem witness_CJrCopiesTheRegisterToPc :
    let s := regsOnly small [(31, 0xFFFFFFFF#32)]
    0x8F82#16 &&& 0xF07F#16 = 0x8002#16 ∧ 0x9F82#16 &&& 0xF07F#16 = 0x9002#16 ∧ s.run = .running ∧ (s.readReg 31).getLsbD 0 = true := by decide

/-! ### The loads and stores by region, each clause at the edge of its range -/

theorem witness_LbuByRegion :
    let io := eaStandard 6 0xFFF#12 (regsOnly small [(6, 0x40000001#32)])
    let last := eaStandard 6 0xFFF#12 (regsOnly small [(6, 0x100#32)])
    let gap := eaStandard 6 0xFFF#12 (regsOnly small [(6, 0x101#32)])
    0x40000000 ≤ io.toNat ∧ (last.toNat < 0x40000000 ∧ last.toNat < small.memSize ∧ last = 0xFF#32) ∧
    (gap.toNat < 0x40000000 ∧ small.memSize ≤ gap.toNat ∧ gap = 0x100#32) := by decide
theorem witness_LwByRegion :
    let io := eaStandard 6 0xFFF#12 (regsOnly small [(6, 0x40000001#32)])
    let last := eaStandard 6 0xFFF#12 (regsOnly small [(6, 0x100#32)])
    let gap := eaStandard 6 0xFFF#12 (regsOnly small [(6, 0x40000000#32)])
    0x40000000 ≤ io.toNat ∧ (last.toNat < 0x40000000 ∧ 4 * (last.toNat / 4) + 4 ≤ small.memSize ∧ last = 0xFF#32) ∧
    (gap.toNat < 0x40000000 ∧ small.memSize < 4 * (gap.toNat / 4) + 4 ∧ gap = 0x3FFFFFFF#32) := by decide
theorem witness_SwByRegion :
    let io := eaStandard 6 0xFFF#12 (regsOnly large [(6, 0x40000001#32)])
    let above := eaStandard 6 0x001#12 (regsOnly large [(6, 0xFFFC#32)])
    let last := eaStandard 6 0x000#12 (regsOnly large [(6, 0xFFFC#32)])
    (regsOnly large [(6, 0xFFFC#32)]).mem.wf = true ∧ 0x40000000 ≤ io.toNat ∧
    (65532 < above.toNat ∧ above.toNat < 0x40000000) ∧
    (last.toNat ≤ 65532 ∧ 4 * (last.toNat / 4) + 4 ≤ large.memSize) ∧
    (last.toNat ≤ 65532 ∧ (⟨0xFFFF, .fault⟩ : Config).memSize < 4 * (last.toNat / 4) + 4) := by decide
theorem witness_CLwByRegion :
    let io := eaCompressed (popular 3) 124#7 (regsOnly small [(11, 0x3FFFFF84#32)])
    let last := eaCompressed (popular 3) 124#7 (regsOnly small [(11, 0x83#32)])
    let gap := eaCompressed (popular 3) 124#7 (regsOnly small [(11, 0x84#32)])
    (0x40000000 ≤ io.toNat ∧ io = 0x40000000#32) ∧
    (last.toNat < 0x40000000 ∧ 4 * (last.toNat / 4) + 4 ≤ small.memSize ∧ last = 0xFF#32) ∧
    (gap.toNat < 0x40000000 ∧ small.memSize < 4 * (gap.toNat / 4) + 4 ∧ gap = 0x100#32) := by decide
theorem witness_CSwByRegion :
    let io := eaCompressed (popular 3) 124#7 (regsOnly large [(11, 0x3FFFFF84#32)])
    let above := eaCompressed (popular 3) 4#7 (regsOnly large [(11, 0xFFF9#32)])
    let last := eaCompressed (popular 3) 4#7 (regsOnly large [(11, 0xFFF8#32)])
    (regsOnly large [(11, 0xFFF8#32)]).mem.wf = true ∧ (0x40000000 ≤ io.toNat ∧ io = 0x40000000#32) ∧
    (65532 < above.toNat ∧ above.toNat < 0x40000000 ∧ above = 0xFFFD#32) ∧
    (last.toNat ≤ 65532 ∧ 4 * (last.toNat / 4) + 4 ≤ large.memSize) ∧
    (last.toNat ≤ 65532 ∧ (⟨0xFFFF, .fault⟩ : Config).memSize < 4 * (last.toNat / 4) + 4) := by decide
theorem witness_CSwspStoresDirectly :
    let at4 := eaCompressed 2 252#8 (regsOnly small [(2, 0#32)])
    let odd := eaCompressed 2 252#8 (regsOnly exact [(2, 0xFFFFFFFF#32)])
    let past := eaCompressed 2 252#8 (regsOnly small [(2, 4#32)])
    let oddPast := eaCompressed 2 252#8 (regsOnly mask [(2, 5#32)])
    (regsOnly small [(2, 0#32)]).mem.wf = true ∧
    (at4.toNat % 4 = 0 ∧ at4.toNat + 4 ≤ small.memSize) ∧
    (exact.swspMisalign = .exact ∧ odd.toNat % 4 ≠ 0 ∧ odd.toNat + 4 ≤ exact.memSize) ∧
    (past.toNat % 4 = 0 ∧ small.memSize < past.toNat + 4) ∧
    (odd.toNat % 4 ≠ 0 ∧ small.swspMisalign = .fault) ∧
    (odd.toNat % 4 ≠ 0 ∧ mask.swspMisalign = .mask ∧ 4 * (odd.toNat / 4) + 4 ≤ mask.memSize) ∧
    (oddPast.toNat % 4 ≠ 0 ∧ mask.swspMisalign = .mask ∧ mask.memSize < 4 * (oddPast.toNat / 4) + 4) := by decide

/-! ### Decoding -/

theorem witness_InvalidCompressedUnitsAreTheListedOnes : (0x0000#16).extractLsb' 0 2 ≠ 3#2 := by decide
theorem witness_DecodeOfEncodeIsTheInstruction :
    (Instr.jal 31 0x1FFFFE#21).WellFormed ∧ (Instr.cAddi4spn 0 4#10).WellFormed ∧ (Instr.cLui 1 0#6).WellFormed := by decide
theorem witness_EncodeOfDecodeIsTheBytes :
    decode [0x13#8, 0x05#8, 0x50#8, 0x00#8, 0xFF#8] =
      .instr (.word 0x00500513#32) (.addi 10 0 5#12) [0xFF#8] := by decide
theorem witness_LengthIsToldByTheLowTwoBits :
    (decode (0x13#8 :: 0x05#8 :: [0x50#8, 0x00#8]) = .instr (.word 0x00500513#32) (.addi 10 0 5#12) [] ∧
      (0x13#8).extractLsb' 0 2 = 3#2) ∧
    (decode (0x82#8 :: 0x80#8 :: [0x07#8]) = .instr (.unit 0x8082#16) (.cJr 1) [0x07#8] ∧
      (0x82#8).extractLsb' 0 2 ≠ 3#2) := by decide

/-! ### The step -/

/-- A 32-bit instruction in the last four bytes of memory completes. -/
theorem witness_StepRunsTheDecodedInstruction_completes :
    let s := start small 0xFC#32 (.word 0x19A00293#32) [] []
    s.run = .running ∧ s.pc.getLsbD 0 = false ∧
    decode [s.readByte s.pc.toNat, s.readByte (s.pc + 1#32).toNat, s.readByte (s.pc + 2#32).toNat,
      s.readByte (s.pc + 3#32).toNat] = .instr (.word 0x19A00293#32) (.addi 5 0 410#12) [] ∧
    s.pc.toNat + 2 ≤ s.cfg.memSize ∧ (s.pc + 2#32).toNat + 2 ≤ s.cfg.memSize ∧
    ∃ t, exec (.addi 5 0 410#12) (s.emit (.trace s.pc (.word 0x19A00293#32) (.addi 5 0 410#12))) = .next t ∧
      t.run = .running := ⟨by decide, by decide, by decide, by decide, by decide, ⟨_, rfl, by decide⟩⟩
/-- A 32-bit instruction at 0xFFFF_FFFE of a 4 GiB memory, its second parcel at address 0. -/
theorem witness_StepRunsTheDecodedInstruction_wraps :
    let s := wrapping 0x19A00293#32
    s.run = .running ∧ s.pc.getLsbD 0 = false ∧
    decode [s.readByte s.pc.toNat, s.readByte (s.pc + 1#32).toNat, s.readByte (s.pc + 2#32).toNat,
      s.readByte (s.pc + 3#32).toNat] = .instr (.word 0x19A00293#32) (.addi 5 0 410#12) [] ∧
    s.pc.toNat + 2 ≤ s.cfg.memSize ∧ (s.pc + 2#32).toNat + 2 ≤ s.cfg.memSize ∧
    ∃ t, exec (.addi 5 0 410#12) (s.emit (.trace s.pc (.word 0x19A00293#32) (.addi 5 0 410#12))) = .next t ∧
      t.run = .running := ⟨by decide, by decide, by decide, by decide, by decide, ⟨_, rfl, by decide⟩⟩
/-- A load outside memory halts. -/
theorem witness_StepRunsTheDecodedInstruction_halts :
    let s := start small 0xFC#32 (.word 0x00034283#32) [(6, 0x100#32)] []
    s.run = .running ∧ s.pc.getLsbD 0 = false ∧
    decode [s.readByte s.pc.toNat, s.readByte (s.pc + 1#32).toNat, s.readByte (s.pc + 2#32).toNat,
      s.readByte (s.pc + 3#32).toNat] = .instr (.word 0x00034283#32) (.lbu 5 6 0#12) [] ∧
    s.pc.toNat + 2 ≤ s.cfg.memSize ∧ (s.pc + 2#32).toNat + 2 ≤ s.cfg.memSize ∧
    ∃ t, exec (.lbu 5 6 0#12) (s.emit (.trace s.pc (.word 0x00034283#32) (.lbu 5 6 0#12))) = .next t ∧
      t.run = .halted (.loadOutOfRange 0x100#32) := ⟨by decide, by decide, by decide, by decide, by decide, ⟨_, rfl, by decide⟩⟩
theorem witness_WithFetchWordIsRunNext :
    State.reset.mem.wf = true ∧
    decode (tableBytes 16 0x8082) = .instr (.unit 0x8082#16) (.cJr 1) [0#8, 0#8] := by decide
/-- The step at 0xFFFF_FFFE runs the instruction and pc wraps to 2 (10_state.md R27: 0xFFFF_FFFE + 4 = 2). -/
theorem test_step_second_parcel_wraps :
    ∃ t, step (wrapping 0x19A00293#32) = .next t ∧ t.pc = 2#32 ∧ t.readReg 5 = 410#32 := ⟨_, rfl, by decide, by decide⟩
theorem witness_OddPcHaltsBeforeTheFetch :
    let s := start small 0xFFFFFFFF#32 (.unit 0#16) [] []
    s.run = .running ∧ s.pc.getLsbD 0 = true := by decide
theorem witness_FetchOutsideMemoryHalts :
    let s := start small 0xFE#32 (.unit 0x0013#16) [] []
    let t := start small 0x100#32 (.unit 0#16) [] []
    (t.run = .running ∧ t.pc.getLsbD 0 = false ∧ t.cfg.memSize < t.pc.toNat + 2) ∧
    s.run = .running ∧ s.pc.getLsbD 0 = false ∧ s.pc.toNat + 2 ≤ s.cfg.memSize ∧
    (s.readByte s.pc.toNat).extractLsb' 0 2 = 3#2 ∧ s.cfg.memSize < (s.pc + 2#32).toNat + 2 := by decide
/-- ECALL in the last four bytes. -/
theorem witness_InvalidEncodingsHalt_word :
    let s := start small 0xFC#32 (.word 0x00000073#32) [] []
    let w : BitVec 32 := s.memRead16 (s.pc + 2#32).toNat ++ s.memRead16 s.pc.toNat
    s.run = .running ∧ s.pc.getLsbD 0 = false ∧ s.pc.toNat + 2 ≤ s.cfg.memSize ∧ (s.pc + 2#32).toNat + 2 ≤ s.cfg.memSize ∧
    w.extractLsb' 0 2 = 3#2 ∧ ∀ r ∈ standardRows, w &&& r.2.2 ≠ r.2.1 := by decide
/-- ECALL at 0xFFFF_FFFE of a 4 GiB memory, its second parcel at address 0. -/
theorem witness_InvalidEncodingsHalt_wraps :
    let s := wrapping 0x00000073#32
    s.run = .running ∧ s.pc.getLsbD 0 = false ∧ s.pc.toNat + 2 ≤ s.cfg.memSize ∧ (s.pc + 2#32).toNat + 2 ≤ s.cfg.memSize ∧
    s.memRead16 (s.pc + 2#32).toNat ++ s.memRead16 s.pc.toNat = 0x00000073#32 := by decide
/-- C.LWSP in the last two bytes. -/
theorem witness_InvalidEncodingsHalt_unit :
    let s := start small 0xFE#32 (.unit 0x4502#16) [] []
    s.run = .running ∧ s.pc.getLsbD 0 = false ∧ s.pc.toNat + 2 ≤ s.cfg.memSize ∧
    (s.memRead16 s.pc.toNat).extractLsb' 0 2 ≠ 3#2 ∧
    ∀ r ∈ compressedRows, s.memRead16 s.pc.toNat &&& r.2.2 ≠ r.2.1 := by decide
theorem witness_HaltedIsTerminal :
    let s : State := { State.reset with run := .halted (.oddPc 1#32) }
    s.run = .halted (.oddPc 1#32) := by decide
theorem witness_HaltingChangesOnlyTheRunState_exec :
    let s := regsOnly small [(6, 0x100#32)]
    s.run = .running ∧ ∃ t, exec (.lw 5 6 0#12) s = .next t ∧ t.run = .halted (.loadOutOfRange 0x100#32) :=
  ⟨by decide, _, rfl, by decide⟩
theorem witness_HaltingChangesOnlyTheRunState_step :
    ∃ t, step State.reset = .next t ∧ t.run = .halted (.invalidCompressed 0#32 0#16 0#2 0#3 0#4) := ⟨_, rfl, by decide⟩
theorem witness_OnlyLoadsAndStoresHaltInExecution :
    let s := regsOnly small [(2, 0x101#32)]
    s.run = .running ∧ ∃ t, exec (.cSwsp 1 0#8) s = .next t ∧ t.run = .halted (.swspMisaligned 0x101#32) :=
  ⟨by decide, _, rfl, by decide⟩

/-! ### The whole machine -/

theorem witness_EveryStepKeepsTheInvariant :
    let s := start small 0#32 (.word 0x00732423#32) [(6, 0x40#32), (7, 1#32)] []
    s.Inv ∧ ∃ t, step s = .next t ∧ t.readByte 0x48 = 1#8 :=
  ⟨⟨by decide, by decide, by decide, by decide⟩, _, rfl, by decide⟩
theorem witness_OnlyCJrMakesThePcOdd :
    let s := start small 0#32 (.unit 0x8502#16) [(10, 0x41#32)] []
    s.run = .running ∧ s.pc.getLsbD 0 = false ∧ ∃ t, step s = .next t ∧ t.pc.getLsbD 0 = true :=
  ⟨by decide, by decide, _, rfl, by decide⟩
theorem witness_FallThroughAdvancesByTheLength :
    let s := regsOnly small [(6, 0xFF#32)]
    s.run = .running ∧ IsControl (.lbu 5 6 0#12) = false ∧
    ∃ t, exec (.lbu 5 6 0#12) s = .next t ∧ t.run = .running := ⟨by decide, by decide, _, rfl, by decide⟩
theorem witness_OnlyStoresWriteMemory :
    ¬IsStore (.addi 5 0 1#12) ∧ ∃ t, exec (.addi 5 0 1#12) State.reset = .next t :=
  ⟨by (rintro (⟨_, _, _, h⟩ | ⟨_, _, _, h⟩ | ⟨_, _, h⟩) <;> cases h), _, rfl⟩
theorem witness_EventsAreOnlyAppended :
    (∃ t, step (start small 0#32 (.unit 0x0015#16) [] []) = .next t ∧ t.run = .running) ∧
    (∃ t, step State.reset = .next t ∧ t.run ≠ .running) := ⟨⟨_, rfl, by decide⟩, ⟨_, rfl, by decide⟩⟩
theorem witness_TraceComesBeforeTheDiagnostic :
    let s := start small 0#32 (.unit 0x0015#16) [] []
    s.run = .running ∧ s.fetchDecode = .ok (.unit 0x0015#16, .cAddi 0 5#6) ∧
    ∃ t, step s = .next t ∧ t.run = .running := ⟨by decide, rfl, _, rfl, by decide⟩
theorem witness_X0WriteComesOnlyFromDestinationZero :
    let s := regsOnly small []
    (Instr.cAddi 0 5#6).WellFormed ∧ ∃ t, exec (.cAddi 0 5#6) s = .next t ∧
      .x0Write 5#32 ∈ t.events.drop s.events.length := ⟨by decide, _, rfl, by decide⟩
theorem witness_JumpToItselfNeverHalts :
    let s := start small 0xFE#32 (.unit 0xA001#16) [] []
    s.run = .running ∧ s.pc.getLsbD 0 = false ∧ s.pc.toNat + 2 ≤ s.cfg.memSize ∧
    s.memRead16 s.pc.toNat = 0xA001#16 := by decide
theorem witness_LoadConstantExpansionsReachEveryValue : (1 : RegIdx) ≠ 0 := by decide

end Sys2Proof.Tests
end

/-! Proofs for the family `10_state.md`: the invariant, the register and memory laws, the pc and the event list. -/

namespace Sys2Proof.Machine

/-! ## What a step answers -/

/-- A step either answers its own state with a run state `halted(f)`, or completes the instruction it decoded. -/
theorem step_halts_or_completes {s t : State} (h : step s = .next t) :
    (∃ f, t = { s with run := .halted f }) ∨
      ∃ raw i, s.fetchDecode = .ok (raw, i) ∧ exec i (s.traced raw i) = .next t ∧ t.run = .running := by
  obtain ⟨f, hrun, hs⟩ | ⟨f, -, -, hs⟩ | ⟨raw, i, -, hdec, hs⟩ := step_cases h
  · cases hs
    exact .inl ⟨f, by rw [← hrun]⟩
  · cases hs
    exact .inl ⟨f, rfl⟩
  · obtain ⟨u, hu⟩ := exec_next i (s.traced raw i)
    rw [hu] at hs
    cases hur : u.run with
    | running =>
      rw [commit_running hur] at hs
      cases hs
      exact .inr ⟨raw, i, hdec, hu, hur⟩
    | halted f =>
      rw [commit_halted hur] at hs
      cases hs
      exact .inl ⟨f, rfl⟩

/-! ## The invariant (10_state.md R21, R31) -/

/-- The invariant speaks of memory, slot 0 and the parameters only. -/
theorem State.Inv.of_eq {s t : State} (h : s.Inv) (hmem : t.mem = s.mem) (hslot : t.regs[0] = s.regs[0])
    (hcfg : t.cfg = s.cfg) : t.Inv where
  memory_canonical := hmem ▸ h.memory_canonical
  memory_in_range := hmem ▸ hcfg ▸ h.memory_in_range
  slot0_zero := hslot.trans h.slot0_zero
  size_fits := hcfg ▸ h.size_fits

theorem State.Inv.memWrite32 {s : State} (h : s.Inv) (a : Nat) (v : Word) (ha : a + 4 ≤ s.cfg.memSize) :
    (s.memWrite32 a v).Inv where
  memory_canonical := State.memWrite_wf a 4 v h.memory_canonical
  memory_in_range := by
    rw [State.memWrite32, State.memWrite_cfg]
    exact State.memWrite_below a 4 v h.memory_in_range ha
  slot0_zero := by simpa [State.memWrite32] using h.slot0_zero
  size_fits := by simpa [State.memWrite32] using h.size_fits

/-- Every instruction keeps the invariant, on any path. -/
theorem exec_keeps_inv {i : Instr} {s t : State} (h : s.Inv) (he : exec i s = .next t) : t.Inv := by
  have hshape := exec_shape i s
  rw [he] at hshape
  cases hshape with
  | register => exact h.of_eq (by simp) (by simp) (by simp)
  | ioLoad => exact h.of_eq (by simp) (by simp) (by simp)
  | pc => exact h.of_eq rfl rfl rfl
  | ioStore => exact h.of_eq rfl rfl rfl
  | store n v _ hn => exact (h.memWrite32 n v hn).of_eq rfl rfl rfl
  | halt => exact h.of_eq rfl rfl rfl

/-- Settles O52: a halting step changes only the run state, a completed one is `exec` on the traced state. -/
theorem everyStepKeepsTheInvariant : Obligations.EveryStepKeepsTheInvariant := by
  intro s t hinv hstep
  obtain ⟨f, rfl⟩ | ⟨raw, i, -, he, -⟩ := step_halts_or_completes hstep
  · exact hinv.of_eq rfl rfl rfl
  · have htraced : (s.traced raw i).Inv := hinv.of_eq rfl rfl rfl
    exact exec_keeps_inv htraced he

/-- `Reset(IMAGE)` meets the invariant, the image being cut at MEM_SIZE (10_state.md R34; log 8). -/
theorem State.resetWith_inv (image : List Byte) {c : Config} (hc : c.wf = true) : (State.resetWith image c).Inv where
  memory_canonical := Memory.wfFrom_ofImage 0 _
  memory_in_range := by
    refine Memory.below_ofImage 0 c.memSize (image.take c.memSize) ?_
    rw [Nat.zero_add]
    exact List.length_take_le _ _
  slot0_zero := rfl
  size_fits := hc

/-- Settles O2: the reset state is `Reset` of the empty image, so one lemma about `Reset` gives both parts. -/
theorem resetMeetsTheInvariant : Obligations.ResetMeetsTheInvariant := by
  have hreset : State.reset = State.resetWith [] ⟨65536, .fault⟩ := rfl
  exact ⟨hreset, hreset ▸ State.resetWith_inv [] (by decide), fun image _ hc => State.resetWith_inv image hc⟩

/-! ## Canonical memory (10_state.md R31; log 7) -/

theorem Memory.wfFrom_cons {lo a : Nat} {b : Byte} {rest : Memory} :
    wfFrom lo ((a, b) :: rest) = true ↔ lo ≤ a ∧ b ≠ unlisted ∧ wfFrom (a + 1) rest = true := by
  simp [wfFrom, and_assoc]

theorem Memory.read_cons_self (a : Nat) (b : Byte) (rest : Memory) : Memory.read ((a, b) :: rest) a = b := by
  simp [read]

theorem Memory.read_cons_of_ne {a k : Nat} (b : Byte) (rest : Memory) (h : a ≠ k) :
    Memory.read ((a, b) :: rest) k = rest.read k := by
  simp [read, h]

/-- In canonical memory no address before the head is listed. -/
theorem Memory.head_le_of_read_ne {lo a k : Nat} {b : Byte} {rest : Memory}
    (hm : wfFrom lo ((a, b) :: rest) = true) (hk : Memory.read ((a, b) :: rest) k ≠ unlisted) : a ≤ k := by
  obtain ⟨-, hb, hrest⟩ := wfFrom_cons.1 hm
  by_contra hlt
  exact hk (read_of_lt (wfFrom_cons.2 ⟨le_refl a, hb, hrest⟩) (by omega))

/-- Two canonical memories that read alike are equal: each head address is listed in the other, so the heads agree, and
below the tails' first addresses both tails read the unlisted byte. -/
theorem Memory.eq_of_read_eq {m m' : Memory} {lo lo' : Nat} (hm : wfFrom lo m = true) (hm' : wfFrom lo' m' = true)
    (h : ∀ k, m.read k = m'.read k) : m = m' := by
  induction m generalizing m' lo lo' with
  | nil =>
    cases m' with
    | nil => rfl
    | cons c' rest' =>
      have hhead := h c'.1
      rw [read_cons_self] at hhead
      exact absurd hhead.symm (wfFrom_cons.1 hm').2.1
  | cons c rest ih =>
    obtain ⟨a, b⟩ := c
    obtain ⟨-, hb, hrest⟩ := wfFrom_cons.1 hm
    cases m' with
    | nil =>
      have hhead := h a
      rw [read_cons_self] at hhead
      exact absurd hhead hb
    | cons c' rest' =>
      obtain ⟨a', b'⟩ := c'
      obtain ⟨-, hb', hrest'⟩ := wfFrom_cons.1 hm'
      have hle : a ≤ a' := head_le_of_read_ne hm (by rwa [h, read_cons_self])
      have hle' : a' ≤ a := head_le_of_read_ne hm' (by rwa [← h, read_cons_self])
      obtain rfl : a = a' := by omega
      obtain rfl : b = b' := by simpa only [read_cons_self] using h a
      have htail : ∀ k, Memory.read rest k = Memory.read rest' k := fun k => by
        by_cases hk : a = k
        · rw [read_of_lt hrest (by omega), read_of_lt hrest' (by omega)]
        · simpa only [read_cons_of_ne b _ hk] using h k
      rw [ih hrest hrest' htail]

/-- Settles O7. -/
theorem canonicalMemoryIsDeterminedByItsBytes : Obligations.CanonicalMemoryIsDeterminedByItsBytes :=
  fun _ _ hm hm' h => Memory.eq_of_read_eq hm hm' h

/-! ## Register writes (10_state.md R22) -/

theorem State.writeReg_zero_zero (s : State) : s.writeReg 0 0#32 = s := rfl

theorem State.writeReg_zero_of_ne (s : State) {v : Word} (h : v ≠ 0#32) : s.writeReg 0 v = s.emit (.x0Write v) := by
  simp [State.writeReg, h]

theorem State.writeReg_of_ne_zero (s : State) {i : RegIdx} (v : Word) (h : i ≠ 0) :
    s.writeReg i v = { s with regs := s.regs.set i v } := by
  simp [State.writeReg, h]

/-- Settles O3, from `readReg_writeReg` and the three cases of `writeReg`. -/
theorem registerWriteLaw : Obligations.RegisterWriteLaw := by
  intro s i v
  refine ⟨fun hi => ?_, rfl, fun r hr => ?_, ?_, ?_, fun hi => ?_⟩
  · simp [State.readReg_writeReg, hi]
  · simp [State.readReg_writeReg, hr]
  · rintro ⟨rfl, hv⟩
    exact s.writeReg_zero_of_ne hv
  · rintro ⟨rfl, rfl⟩
    exact s.writeReg_zero_zero
  · simp [State.writeReg_of_ne_zero s v hi]

/-! ## The event list (10_state.md R20; 60_exceptions.md R278) -/

/-- Every instruction only appends events. -/
theorem exec_appends_events {i : Instr} {s t : State} (he : exec i s = .next t) : ∃ l, t.events = s.events ++ l := by
  have hshape := exec_shape i s
  rw [he] at hshape
  cases hshape with
  | register rd v => exact ⟨_, s.writeReg_events rd v⟩
  | ioLoad a rd => exact ⟨_, ((s.emit (.ioLoad a)).writeReg_events rd 0#32).trans (List.append_assoc ..)⟩
  | pc => exact ⟨[], (List.append_nil _).symm⟩
  | ioStore a v => exact ⟨[.ioStore a v], rfl⟩
  | store n v => exact ⟨[], by simp [State.memWrite32]⟩
  | halt => exact ⟨[], (List.append_nil _).symm⟩

/-- Settles O56: a halting step keeps the list, a completed one appends its trace event and what `exec` appends. -/
theorem eventsAreOnlyAppended : Obligations.EventsAreOnlyAppended := by
  intro s t hstep
  obtain ⟨f, rfl⟩ | ⟨raw, i, -, he, hrun⟩ := step_halts_or_completes hstep
  · exact ⟨⟨[], (List.append_nil _).symm⟩, fun _ => rfl⟩
  · obtain ⟨l, hl⟩ := exec_appends_events he
    exact ⟨⟨.trace s.pc raw i :: l, by rw [hl, State.traced_events, List.append_assoc, List.singleton_append]⟩,
      fun hhalt => absurd hrun hhalt⟩

/-! ## Falling through (10_state.md R25) -/

/-- The answer to `s` is a fatal fault raised at `s`, or has pc advanced by `len`. -/
inductive Advances (len : Word) (s : State) : Result → Prop where
  | next (t : State) (h : t.pc = s.pc + len) : Advances len s (.next t)
  | halt (f : HaltReason) : Advances len s (raise f s)

theorem Advances.pc_of_running {len : Word} {s t : State} (h : Advances len s (.next t)) (hrun : t.run = .running) :
    t.pc = s.pc + len := by
  cases h with
  | next _ hpc => exact hpc
  | halt f => cases hrun

theorem advances_writeBack (rd : RegIdx) (v len : Word) (s : State) : Advances len s (writeBack rd v len s) :=
  .next _ (by simp)

theorem advances_loadWordInto (rd : RegIdx) (ea len : Word) (s : State) :
    Advances len s (loadWordInto rd ea len s) := by
  unfold loadWordInto
  rcases s.loadWord_cases ea with h | h | h <;> rw [h]
  · exact .next _ (by simp)
  · exact .next _ (by simp)
  · exact .halt _

theorem advances_loadByteInto (rd : RegIdx) (ea len : Word) (s : State) :
    Advances len s (loadByteInto rd ea len s) := by
  unfold loadByteInto
  rcases s.loadByte_cases ea with h | h | h <;> rw [h]
  · exact .next _ (by simp)
  · exact .next _ (by simp)
  · exact .halt _

theorem advances_storeWord (a v len : Word) (s : State) : Advances len s (finishStore len (s.storeWord a v) s) := by
  rcases s.storeWord_cases a v with h | h | ⟨h, -⟩ | h <;> rw [h]
  · exact .next _ rfl
  · exact .halt _
  · exact .next _ (by simp [State.memWrite32])
  · exact .halt _

theorem advances_storeDirect (a v len : Word) (s : State) :
    Advances len s (finishStore len (s.storeDirect a v) s) := by
  rcases s.storeDirect_cases a v with ⟨n, h, -⟩ | h | h <;> rw [h]
  · exact .next _ (by simp [State.memWrite32])
  · exact .halt _
  · exact .halt _

/-- An instruction that is no branch or jump advances pc by its own length. -/
theorem exec_advances {i : Instr} (h : IsControl i = false) (s : State) :
    Advances (BitVec.ofNat 32 (encode i).length) s (exec i s) := by
  cases i
  case lw => exact advances_loadWordInto ..
  case lbu => exact advances_loadByteInto ..
  case sw => exact advances_storeWord ..
  case cLw => exact advances_loadWordInto ..
  case cSw => exact advances_storeWord ..
  case cSwsp => exact advances_storeDirect ..
  case jal | bne | blt | bge | bltu | bgeu | cJal | cJ | cBeqz | cBnez | cJr => cases h
  all_goals exact advances_writeBack ..

theorem exec_pc_of_not_control {i : Instr} {s t : State} (h : IsControl i = false) (he : exec i s = .next t)
    (hrun : t.run = .running) : t.pc = s.pc + BitVec.ofNat 32 (encode i).length := by
  have hadv := exec_advances h s
  rw [he] at hadv
  exact hadv.pc_of_running hrun

/-- Settles O54. -/
theorem fallThroughAdvancesByTheLength : Obligations.FallThroughAdvancesByTheLength :=
  fun _ _ _ _ hctl he hrun => exec_pc_of_not_control hctl he hrun

/-! ## What the decoders answer is well-formed (30_encoding.md R98, R110) -/

theorem decodeBranch_wf {w : BitVec 32} {i : Instr} (h : decodeBranch w = some i) : i.WellFormed := by
  have hz : lowZero 1 (fieldImmB w) = true := lowZero_append _
  unfold decodeBranch at h
  split_ifs at h <;> cases h <;> exact hz

theorem decodeLoad_wf {w : BitVec 32} {i : Instr} (h : decodeLoad w = some i) : i.WellFormed := by
  unfold decodeLoad at h
  split_ifs at h <;> cases h <;> rfl

theorem decodeStore_wf {w : BitVec 32} {i : Instr} (h : decodeStore w = some i) : i.WellFormed := by
  unfold decodeStore at h
  split_ifs at h
  cases h
  rfl

theorem decodeOpImm_wf {w : BitVec 32} {i : Instr} (h : decodeOpImm w = some i) : i.WellFormed := by
  unfold decodeOpImm at h
  split_ifs at h <;> cases h <;> rfl

theorem decodeOp_wf {w : BitVec 32} {i : Instr} (h : decodeOp w = some i) : i.WellFormed := by
  unfold decodeOp at h
  split_ifs at h <;> cases h <;> rfl

theorem decodeStandard_wf {w : BitVec 32} {i : Instr} (h : decodeStandard w = some i) : i.WellFormed := by
  unfold decodeStandard at h
  split_ifs at h
  · cases h; rfl
  · cases h; rfl
  · cases h; exact lowZero_append _
  · exact decodeBranch_wf h
  · exact decodeLoad_wf h
  · exact decodeStore_wf h
  · exact decodeOpImm_wf h
  · exact decodeOp_wf h

/-- The guard of C.ADDI4SPN: with both operands zero the unit is the all-zero one (30_encoding.md R113). -/
theorem cAddi4spn_operands_ne_zero {u : BitVec 16} (hop : cOp u = 0b00#2) (h3 : cFunct3 u = 0b000#3) (hu : u ≠ 0#16) :
    ¬(cPop2 u = 0 ∧ cImm4spn u = 0#10) := by
  rintro ⟨hrd, himm⟩
  have hunit := encodeCIW_fields u hop h3
  rw [hrd, himm] at hunit
  exact hu (Raw.unit.inj hunit).symm

theorem decodeQuadrant0_wf {u : BitVec 16} {i : Instr} (hop : cOp u = 0b00#2) (h : decodeQuadrant0 u = some i) :
    i.WellFormed := by
  have himm : lowZero 2 (cImm4spn u) = true := lowZero_append _
  have huimm : lowZero 2 (cUimmLw u) = true := lowZero_append _
  unfold decodeQuadrant0 at h
  split_ifs at h with h3 hu
  · cases h
    have hguard := not_and_or.1 (cAddi4spn_operands_ne_zero hop h3 hu)
    simpa [Instr.WellFormed, Instr.wf, himm] using hguard
  · cases h; exact huimm
  · cases h; exact huimm

theorem decodeQuadrant1_wf {u : BitVec 16} {i : Instr} (h : decodeQuadrant1 u = some i) : i.WellFormed := by
  have hj : lowZero 1 (cImmJ u) = true := lowZero_append _
  have hb : lowZero 1 (cImmB u) = true := lowZero_append _
  have hsp : lowZero 4 (cImm16sp u) = true := lowZero_append _
  unfold decodeQuadrant1 at h
  split_ifs at h with _ _ _ _ h0 h2
  · cases h; rfl
  · cases h; exact hj
  · cases h; rfl
  · cases h; exact hsp
  · cases h; exact hsp
  · cases h
    simp [Instr.WellFormed, Instr.wf, h0, h2]
  · cases h; rfl
  · cases h; exact hj
  · cases h; exact hb
  · cases h; exact hb

theorem decodeQuadrant2_wf {u : BitVec 16} {i : Instr} (h : decodeQuadrant2 u = some i) : i.WellFormed := by
  have huimm : lowZero 2 (cUimmSwsp u) = true := lowZero_append _
  unfold decodeQuadrant2 at h
  split_ifs at h with _ hrs2 hrd _ hne
  · cases h; rfl
  · cases h
    simp [Instr.WellFormed, Instr.wf, hrs2, hrd]
  · cases h
    simpa [Instr.WellFormed, Instr.wf] using not_or.1 hne
  · cases h; exact huimm

theorem decodeCompressed_wf {u : BitVec 16} {i : Instr} (h : decodeCompressed u = some i) : i.WellFormed := by
  unfold decodeCompressed at h
  split_ifs at h with hop
  · exact decodeQuadrant0_wf hop h
  · exact decodeQuadrant1_wf h
  · exact decodeQuadrant2_wf h

theorem decodeRaw_wf {raw : Raw} {i : Instr} (h : decodeRaw raw = some i) : i.WellFormed := by
  cases raw with
  | unit => exact decodeCompressed_wf h
  | word => exact decodeStandard_wf h

/-- The step executes well-formed instructions only. -/
theorem State.fetchDecode_wf {s : State} {raw : Raw} {i : Instr} (h : s.fetchDecode = .ok (raw, i)) : i.WellFormed := by
  unfold State.fetchDecode at h
  split at h
  · cases h
  · split at h
    · cases h
    · split at h
      · cases h
        exact decodeRaw_wf ‹_›
      · cases h

/-! ## The parity of pc (10_state.md R26) -/

theorem even_add {a b : Word} (ha : a.getLsbD 0 = false) (hb : b.getLsbD 0 = false) : (a + b).getLsbD 0 = false := by
  rw [BitVec.getLsbD_add (by decide), BitVec.carry_zero, ha, hb]
  rfl

/-- A sign-extended offset that does not carry its bit 0 is even. -/
theorem even_sext {n : Nat} {imm : BitVec n} (hn : 0 < n) (h : lowZero 1 imm = true) : (sext imm).getLsbD 0 = false := by
  rw [sext, BitVec.getLsbD_signExtend, if_pos hn, lowZero_getLsbD h 0 (by decide)]
  rfl

theorem even_length (raw : Raw) : (BitVec.ofNat 32 raw.length).getLsbD 0 = false := by
  cases raw with
  | unit => exact (rfl : (2#32).getLsbD 0 = false)
  | word => exact (rfl : (4#32).getLsbD 0 = false)

theorem branch_keeps_pc_even {c : Bool} {imm len : Word} {s t : State} (hpc : s.pc.getLsbD 0 = false)
    (himm : imm.getLsbD 0 = false) (hlen : len.getLsbD 0 = false) (h : branch c imm len s = .next t) :
    t.pc.getLsbD 0 = false := by
  cases h
  cases c with
  | true => exact even_add hpc himm
  | false => exact even_add hpc hlen

/-- Every well-formed instruction but C.JR keeps an even pc even, when it completes. -/
theorem exec_keeps_pc_even {i : Instr} {s t : State} (hwf : i.WellFormed) (hjr : ∀ rs1, i ≠ .cJr rs1)
    (hpc : s.pc.getLsbD 0 = false) (he : exec i s = .next t) (hrun : t.run = .running) : t.pc.getLsbD 0 = false := by
  cases hctl : IsControl i with
  | false =>
    rw [exec_pc_of_not_control hctl he hrun]
    exact even_add hpc (even_length _)
  | true =>
    cases i
    case cJr rs1 => exact absurd rfl (hjr rs1)
    case jal | cJal | cJ =>
      cases he
      exact even_add hpc (even_sext (by decide) hwf)
    case bne | blt | bge | bltu | bgeu | cBeqz | cBnez =>
      exact branch_keeps_pc_even hpc (even_sext (by decide) hwf) rfl he
    all_goals cases hctl

/-- Settles O53: a halting step keeps pc, and a completed instruction other than C.JR keeps it even. -/
theorem onlyCJrMakesThePcOdd : Obligations.OnlyCJrMakesThePcOdd := by
  intro s t _ hpc hstep hodd
  obtain ⟨f, rfl⟩ | ⟨raw, i, hdec, he, hrun⟩ := step_halts_or_completes hstep
  · exact absurd (hpc.symm.trans hodd) Bool.false_ne_true
  · by_cases hjr : ∃ rs1, i = .cJr rs1
    · obtain ⟨rs1, rfl⟩ := hjr
      cases he
      exact ⟨raw, rs1, hdec, rfl⟩
    · have hpc' : (s.traced raw i).pc.getLsbD 0 = false := hpc
      have heven := exec_keeps_pc_even (State.fetchDecode_wf hdec) (not_exists.1 hjr) hpc' he hrun
      exact absurd (heven.symm.trans hodd) Bool.false_ne_true

end Sys2Proof.Machine

/-! Proofs for the family `20_memory.md`: raw reads and writes, the access primitives by region, what a stored word is read
back as, and which instructions write memory. -/

namespace Sys2Proof.Machine

/-! ## The I/O region (20_memory.md R51) -/

/-- Settles O4. -/
theorem ioRegionIsTheTopThreeQuarters : Obligations.IoRegionIsTheTopThreeQuarters :=
  fun a => ⟨isIo_iff_bits a, isIo_iff a⟩

/-! ## Raw reads (20_memory.md R52, R53) -/

/-- A byte below a bit string adds to 256 times its value. -/
theorem toNat_append_byte {n : Nat} (x : BitVec n) (b : Byte) : (x ++ b).toNat = b.toNat + 256 * x.toNat := by
  have h := Nat.shiftLeft_add_eq_or_of_lt b.isLt x.toNat
  rw [BitVec.toNat_append, ← h, Nat.shiftLeft_eq]
  omega

theorem State.memRead16_toNat (s : State) (a : Nat) :
    (s.memRead16 a).toNat = (s.readByte a).toNat + 256 * (s.readByte (a + 1)).toNat := by
  rw [State.memRead16, parcelOfBytes, toNat_append_byte]

theorem State.memRead32_toNat (s : State) (a : Nat) :
    (s.memRead32 a).toNat =
      (s.readByte a).toNat + 256 * (s.readByte (a + 1)).toNat + 256 ^ 2 * (s.readByte (a + 2)).toNat +
        256 ^ 3 * (s.readByte (a + 3)).toNat := by
  rw [State.memRead32, wordOfBytes, toNat_append_byte, toNat_append_byte, toNat_append_byte]
  ring

/-- Settles O5. -/
theorem memReadIsLittleEndian : Obligations.MemReadIsLittleEndian :=
  fun s a => ⟨s.memRead16_toNat a, s.memRead32_toNat a⟩

/-! ## Raw writes (20_memory.md R54) -/

/-- Settles O6, from the four laws of `memWrite`; they hold for every `n`. -/
theorem memWriteStoresItsBytes : Obligations.MemWriteStoresItsBytes :=
  fun s a n v hm _ =>
    ⟨fun _ hk => s.readByte_memWrite a n v hm hk, fun _ hb => s.readByte_memWrite_other a n v hb, s.memWrite_eq a n v,
      State.memWrite_wf a n v hm⟩

/-! ## The access primitives, by region (20_memory.md R55 to R59) -/

/-- Settles O9. -/
theorem fetch16ReadsMemoryOrFaults : Obligations.Fetch16ReadsMemoryOrFaults :=
  fun s a => ⟨s.fetch16_ok a, s.fetch16_error a⟩

/-- Settles O10. -/
theorem loadsByRegion : Obligations.LoadsByRegion :=
  ⟨fun s a => ⟨s.loadWord_io a, s.loadWord_memory a, s.loadWord_error a⟩,
    fun s a => ⟨s.loadByte_io a, s.loadByte_memory a, s.loadByte_error a⟩⟩

/-- Settles O11. -/
theorem storeWordByRegion : Obligations.StoreWordByRegion :=
  fun s a v => ⟨s.storeWord_io a v, s.storeWord_bound a v, s.storeWord_memory a v, s.storeWord_error a v⟩

/-- Settles O12: each mode is `storeAt` at the requested or at the aligned address, or the misaligned fault. -/
theorem storeDirectByMode : Obligations.StoreDirectByMode := by
  intro s a v
  refine ⟨fun hexact hin => ?_, fun hexact hout => ?_, s.storeDirect_fault a v, fun hmis hmask hin => ?_,
    fun hmis hmask hout => ?_⟩
  · rw [s.storeDirect_exact a v hexact, s.storeAt_ok a a v hin]
  · rw [s.storeDirect_exact a v hexact, s.storeAt_error a a v hout]
  · rw [← wordAlign_toNat] at hin ⊢
    rw [s.storeDirect_mask a v hmis hmask, s.storeAt_ok _ a v hin]
  · rw [← wordAlign_toNat] at hout
    rw [s.storeDirect_mask a v hmis hmask, s.storeAt_error _ a v hout]

/-! ## Reading a stored word back (20_memory.md R67, R71) -/

theorem State.readByte_memWrite32 (s : State) (a : Nat) (v : Word) {k : Nat} (hm : s.mem.wf = true) (hk : k < 4) :
    (s.memWrite32 a v).readByte (a + k) = v.extractLsb' (8 * k) 8 := s.readByte_memWrite a 4 v hm hk

@[simp] theorem State.memWrite32_cfg (s : State) (a : Nat) (v : Word) : (s.memWrite32 a v).cfg = s.cfg :=
  s.memWrite_cfg a 4 v

/-- Two neighbouring bytes of a stored word, read as a parcel, are 16 neighbouring bits of the value. -/
theorem State.memRead16_memWrite32 (s : State) (a : Nat) (v : Word) {k : Nat} (hm : s.mem.wf = true) (hk : k + 1 < 4) :
    (s.memWrite32 a v).memRead16 (a + k) = v.extractLsb' (8 * k) 16 := by
  have hlo := s.readByte_memWrite32 a v hm (k := k) (by omega)
  have hhi := s.readByte_memWrite32 a v hm hk
  rw [State.memRead16, parcelOfBytes, hlo, Nat.add_assoc, hhi]
  exact BitVec.extractLsb'_append_extractLsb'_eq_extractLsb' (by omega)

/-- The bytes of a word-aligned word do not wrap around 2^32. -/
theorem toNat_add_of_aligned {w : Word} (hw : w.toNat % 4 = 0) {k : Nat} (hk : k < 4) :
    (w + BitVec.ofNat 32 k).toNat = w.toNat + k := by
  have := w.isLt
  rw [BitVec.toNat_add, BitVec.toNat_ofNat]
  omega

/-- A parcel fetch inside a stored word gives 16 bits of it. -/
theorem State.fetch16_memWrite32 (s : State) {w a : Word} (v : Word) {k : Nat} (hm : s.mem.wf = true)
    (ha : a.toNat = w.toNat + k) (hk : k + 1 < 4) (hin : w.toNat + 4 ≤ s.cfg.memSize) :
    (s.memWrite32 w.toNat v).fetch16 a = .ok (v.extractLsb' (8 * k) 16) := by
  rw [State.fetch16_ok _ a (by rw [State.memWrite32_cfg]; omega), ha, s.memRead16_memWrite32 _ v hm hk]

/-- A byte load inside a stored word gives a byte of it. -/
theorem State.loadByte_memWrite32 (s : State) {w a : Word} (v : Word) {k : Nat} (hm : s.mem.wf = true)
    (ha : a.toNat = w.toNat + k) (hk : k < 4) (hio : a.toNat < 0x40000000) (hin : w.toNat + 4 ≤ s.cfg.memSize) :
    (s.memWrite32 w.toNat v).loadByte a = .ok (v.extractLsb' (8 * k) 8, s.memWrite32 w.toNat v) := by
  rw [State.loadByte_memory _ a hio (by rw [State.memWrite32_cfg]; omega), ha, s.readByte_memWrite32 _ v hm hk]

/-- A word load from any address of a stored aligned word gives the word. -/
theorem State.loadWord_memWrite32 (s : State) {n : Nat} {b : Word} (v : Word) (hm : s.mem.wf = true)
    (hb : 4 * (b.toNat / 4) = n) (hio : b.toNat < 0x40000000) (hin : n + 4 ≤ s.cfg.memSize) :
    (s.memWrite32 n v).loadWord b = .ok (v, s.memWrite32 n v) := by
  subst hb
  rw [State.loadWord_memory _ b hio (by rwa [State.memWrite32_cfg]), s.memRead32_memWrite32 _ v hm]

/-- Settles O8: an aligned word below 0x4000_0000 lies below it with all its bytes. -/
theorem mixedWidthAccessesSeeTheStoredWord : Obligations.MixedWidthAccessesSeeTheStoredWord := by
  intro s w v hm hw hin
  refine ⟨fun hio => ⟨fun k hk => ?_, ?_⟩, ?_, ?_⟩
  · have ha := toNat_add_of_aligned hw hk
    exact s.loadByte_memWrite32 v hm ha hk (by omega) hin
  · exact s.loadWord_memWrite32 v hm (by omega) hio hin
  · exact s.fetch16_memWrite32 v hm (k := 0) rfl (by decide) hin
  · exact s.fetch16_memWrite32 v hm (toNat_add_of_aligned hw (k := 2) (by decide)) (by decide) hin

/-- A routed store below the I/O region that succeeds has stored the containing aligned word inside memory. -/
theorem State.storeWord_ok_inv {s t : State} {a v : Word} (hio : a.toNat < 0x40000000) (h : s.storeWord a v = .ok t) :
    t = s.memWrite32 (4 * (a.toNat / 4)) v ∧ 4 * (a.toNat / 4) + 4 ≤ s.cfg.memSize := by
  rcases Nat.lt_or_ge 65532 a.toNat with hbound | hbound
  · rw [s.storeWord_bound a v hbound hio] at h
    cases h
  · rcases Nat.lt_or_ge s.cfg.memSize (4 * (a.toNat / 4) + 4) with hout | hin
    · rw [s.storeWord_error a v hbound hout] at h
      cases h
    · rw [s.storeWord_memory a v hbound hin] at h
      cases h
      exact ⟨rfl, hin⟩

/-- Settles O13. -/
theorem storeIsVisibleToALoadOfTheSameWord : Obligations.StoreIsVisibleToALoadOfTheSameWord := by
  intro s t a b v hm hio hstore hword
  obtain ⟨rfl, hin⟩ := State.storeWord_ok_inv hio hstore
  exact s.loadWord_memWrite32 v hm (by rw [hword]) (by omega) hin

/-! ## Which instructions write memory (20_memory.md R62; 10_state.md R31) -/

theorem writeBack_mem {rd : RegIdx} {v len : Word} {s t : State} (h : writeBack rd v len s = .next t) :
    t.mem = s.mem := by
  cases h
  simp

theorem jumpAndLink_mem {rd : RegIdx} {imm len : Word} {s t : State} (h : jumpAndLink rd imm len s = .next t) :
    t.mem = s.mem := by
  cases h
  simp

theorem branch_mem {c : Bool} {imm len : Word} {s t : State} (h : branch c imm len s = .next t) : t.mem = s.mem := by
  cases h
  rfl

theorem raise_mem {f : HaltReason} {s t : State} (h : raise f s = .next t) : t.mem = s.mem := by
  cases h
  rfl

theorem loadWordInto_mem {rd : RegIdx} {ea len : Word} {s t : State} (h : loadWordInto rd ea len s = .next t) :
    t.mem = s.mem := by
  unfold loadWordInto at h
  obtain hl | hl | hl := s.loadWord_cases ea <;> rw [hl] at h
  · exact (writeBack_mem h).trans (s.emit_mem _)
  · exact writeBack_mem h
  · exact raise_mem h

theorem loadByteInto_mem {rd : RegIdx} {ea len : Word} {s t : State} (h : loadByteInto rd ea len s = .next t) :
    t.mem = s.mem := by
  unfold loadByteInto at h
  obtain hl | hl | hl := s.loadByte_cases ea <;> rw [hl] at h
  · exact (writeBack_mem h).trans (s.emit_mem _)
  · exact writeBack_mem h
  · exact raise_mem h

/-- Settles O55, by the way each instruction ends. -/
theorem onlyStoresWriteMemory : Obligations.OnlyStoresWriteMemory := by
  intro i s t hstore he
  cases i
  case sw rs2 rs1 imm => exact absurd (.inl ⟨rs2, rs1, imm, rfl⟩) hstore
  case cSw rs2 rs1 uimm => exact absurd (.inr (.inl ⟨rs2, rs1, uimm, rfl⟩)) hstore
  case cSwsp rs2 uimm => exact absurd (.inr (.inr ⟨rs2, uimm, rfl⟩)) hstore
  case lw | cLw => exact loadWordInto_mem he
  case lbu => exact loadByteInto_mem he
  case jal | cJal => exact jumpAndLink_mem he
  case bne | blt | bge | bltu | bgeu | cBeqz | cBnez => exact branch_mem he
  case cJ | cJr =>
    cases he
    rfl
  all_goals exact writeBack_mem he

end Sys2Proof.Machine

/-! Proofs for the family `30_encoding.md`: the decoders row by row, the round trip between instructions and bytes, the opcode
maps, the invalid compressed units, and the constants that LI and LA reach. -/

namespace Sys2Proof.Machine

/-! ## The standard decoder, row by row (30_encoding.md R98) -/

section StandardRows
variable {w : BitVec 32}

theorem decodeStandard_lui (hop : opcode w = 0b0110111#7) :
    decodeStandard w = some (.lui (fieldRd w) (fieldImm20 w)) := by
  simp [decodeStandard, hop]

theorem decodeStandard_auipc (hop : opcode w = 0b0010111#7) :
    decodeStandard w = some (.auipc (fieldRd w) (fieldImm20 w)) := by
  simp [decodeStandard, hop]

theorem decodeStandard_jal (hop : opcode w = 0b1101111#7) :
    decodeStandard w = some (.jal (fieldRd w) (fieldImmJ w)) := by
  simp [decodeStandard, hop]

theorem decodeStandard_bne (hop : opcode w = 0b1100011#7) (h3 : funct3 w = 0b001#3) :
    decodeStandard w = some (.bne (fieldRs1 w) (fieldRs2 w) (fieldImmB w)) := by
  simp [decodeStandard, decodeBranch, hop, h3]

theorem decodeStandard_blt (hop : opcode w = 0b1100011#7) (h3 : funct3 w = 0b100#3) :
    decodeStandard w = some (.blt (fieldRs1 w) (fieldRs2 w) (fieldImmB w)) := by
  simp [decodeStandard, decodeBranch, hop, h3]

theorem decodeStandard_bge (hop : opcode w = 0b1100011#7) (h3 : funct3 w = 0b101#3) :
    decodeStandard w = some (.bge (fieldRs1 w) (fieldRs2 w) (fieldImmB w)) := by
  simp [decodeStandard, decodeBranch, hop, h3]

theorem decodeStandard_bltu (hop : opcode w = 0b1100011#7) (h3 : funct3 w = 0b110#3) :
    decodeStandard w = some (.bltu (fieldRs1 w) (fieldRs2 w) (fieldImmB w)) := by
  simp [decodeStandard, decodeBranch, hop, h3]

theorem decodeStandard_bgeu (hop : opcode w = 0b1100011#7) (h3 : funct3 w = 0b111#3) :
    decodeStandard w = some (.bgeu (fieldRs1 w) (fieldRs2 w) (fieldImmB w)) := by
  simp [decodeStandard, decodeBranch, hop, h3]

theorem decodeStandard_lw (hop : opcode w = 0b0000011#7) (h3 : funct3 w = 0b010#3) :
    decodeStandard w = some (.lw (fieldRd w) (fieldRs1 w) (fieldImmI w)) := by
  simp [decodeStandard, decodeLoad, hop, h3]

theorem decodeStandard_lbu (hop : opcode w = 0b0000011#7) (h3 : funct3 w = 0b100#3) :
    decodeStandard w = some (.lbu (fieldRd w) (fieldRs1 w) (fieldImmI w)) := by
  simp [decodeStandard, decodeLoad, hop, h3]

theorem decodeStandard_sw (hop : opcode w = 0b0100011#7) (h3 : funct3 w = 0b010#3) :
    decodeStandard w = some (.sw (fieldRs2 w) (fieldRs1 w) (fieldImmS w)) := by
  simp [decodeStandard, decodeStore, hop, h3]

theorem decodeStandard_addi (hop : opcode w = 0b0010011#7) (h3 : funct3 w = 0b000#3) :
    decodeStandard w = some (.addi (fieldRd w) (fieldRs1 w) (fieldImmI w)) := by
  simp [decodeStandard, decodeOpImm, hop, h3]

theorem decodeStandard_andi (hop : opcode w = 0b0010011#7) (h3 : funct3 w = 0b111#3) :
    decodeStandard w = some (.andi (fieldRd w) (fieldRs1 w) (fieldImmI w)) := by
  simp [decodeStandard, decodeOpImm, hop, h3]

theorem decodeStandard_add (hop : opcode w = 0b0110011#7) (h3 : funct3 w = 0b000#3) (h7 : funct7 w = 0x00#7) :
    decodeStandard w = some (.add (fieldRd w) (fieldRs1 w) (fieldRs2 w)) := by
  simp [decodeStandard, decodeOp, hop, h3, h7]

theorem decodeStandard_sub (hop : opcode w = 0b0110011#7) (h3 : funct3 w = 0b000#3) (h7 : funct7 w = 0x20#7) :
    decodeStandard w = some (.sub (fieldRd w) (fieldRs1 w) (fieldRs2 w)) := by
  simp [decodeStandard, decodeOp, hop, h3, h7]

theorem decodeStandard_xor (hop : opcode w = 0b0110011#7) (h3 : funct3 w = 0b100#3) (h7 : funct7 w = 0x00#7) :
    decodeStandard w = some (.xor (fieldRd w) (fieldRs1 w) (fieldRs2 w)) := by
  simp [decodeStandard, decodeOp, hop, h3, h7]

end StandardRows

/-! ## The compressed decoder, row by row (30_encoding.md R110) -/

section CompressedRows
variable {u : BitVec 16}

theorem decodeCompressed_cAddi4spn (hop : cOp u = 0b00#2) (h3 : cFunct3 u = 0b000#3) (hu : u ≠ 0#16) :
    decodeCompressed u = some (.cAddi4spn (cPop2 u) (cImm4spn u)) := by
  simp [decodeCompressed, decodeQuadrant0, hop, h3, hu]

theorem decodeCompressed_cLw (hop : cOp u = 0b00#2) (h3 : cFunct3 u = 0b010#3) :
    decodeCompressed u = some (.cLw (cPop2 u) (cPop1 u) (cUimmLw u)) := by
  simp [decodeCompressed, decodeQuadrant0, hop, h3]

theorem decodeCompressed_cSw (hop : cOp u = 0b00#2) (h3 : cFunct3 u = 0b110#3) :
    decodeCompressed u = some (.cSw (cPop2 u) (cPop1 u) (cUimmLw u)) := by
  simp [decodeCompressed, decodeQuadrant0, hop, h3]

theorem decodeCompressed_cAddi (hop : cOp u = 0b01#2) (h3 : cFunct3 u = 0b000#3) :
    decodeCompressed u = some (.cAddi (cReg u) (cImm6 u)) := by
  simp [decodeCompressed, decodeQuadrant1, hop, h3]

theorem decodeCompressed_cJal (hop : cOp u = 0b01#2) (h3 : cFunct3 u = 0b001#3) :
    decodeCompressed u = some (.cJal (cImmJ u)) := by
  simp [decodeCompressed, decodeQuadrant1, hop, h3]

theorem decodeCompressed_cLi (hop : cOp u = 0b01#2) (h3 : cFunct3 u = 0b010#3) :
    decodeCompressed u = some (.cLi (cReg u) (cImm6 u)) := by
  simp [decodeCompressed, decodeQuadrant1, hop, h3]

theorem decodeCompressed_cAddi16spField0 (hop : cOp u = 0b01#2) (h3 : cFunct3 u = 0b011#3) (hr : cReg u = 0) :
    decodeCompressed u = some (.cAddi16spField0 (cImm16sp u)) := by
  simp [decodeCompressed, decodeQuadrant1, hop, h3, hr]

theorem decodeCompressed_cAddi16spField2 (hop : cOp u = 0b01#2) (h3 : cFunct3 u = 0b011#3) (hr : cReg u = 2) :
    decodeCompressed u = some (.cAddi16spField2 (cImm16sp u)) := by
  simp [decodeCompressed, decodeQuadrant1, hop, h3, hr]

theorem decodeCompressed_cLui (hop : cOp u = 0b01#2) (h3 : cFunct3 u = 0b011#3) (hr0 : cReg u ≠ 0)
    (hr2 : cReg u ≠ 2) : decodeCompressed u = some (.cLui (cReg u) (cImm6 u)) := by
  simp [decodeCompressed, decodeQuadrant1, hop, h3, hr0, hr2]

theorem decodeCompressed_cAndi (hop : cOp u = 0b01#2) (h3 : cFunct3 u = 0b100#3) (h2 : cFunct2 u = 0b10#2) :
    decodeCompressed u = some (.cAndi (cPop1 u) (cImm6 u)) := by
  simp [decodeCompressed, decodeQuadrant1, hop, h3, h2]

theorem decodeCompressed_cJ (hop : cOp u = 0b01#2) (h3 : cFunct3 u = 0b101#3) :
    decodeCompressed u = some (.cJ (cImmJ u)) := by
  simp [decodeCompressed, decodeQuadrant1, hop, h3]

theorem decodeCompressed_cBeqz (hop : cOp u = 0b01#2) (h3 : cFunct3 u = 0b110#3) :
    decodeCompressed u = some (.cBeqz (cPop1 u) (cImmB u)) := by
  simp [decodeCompressed, decodeQuadrant1, hop, h3]

theorem decodeCompressed_cBnez (hop : cOp u = 0b01#2) (h3 : cFunct3 u = 0b111#3) :
    decodeCompressed u = some (.cBnez (cPop1 u) (cImmB u)) := by
  simp [decodeCompressed, decodeQuadrant1, hop, h3]

theorem decodeCompressed_cJr (hop : cOp u = 0b10#2) (h4 : cFunct4 u = 0b1000#4) (hr2 : cReg2 u = 0) :
    decodeCompressed u = some (.cJr (cReg u)) := by
  simp [decodeCompressed, decodeQuadrant2, hop, h4, hr2]

theorem decodeCompressed_cMv (hop : cOp u = 0b10#2) (h4 : cFunct4 u = 0b1000#4) (hr : cReg u ≠ 0)
    (hr2 : cReg2 u ≠ 0) : decodeCompressed u = some (.cMv (cReg u) (cReg2 u)) := by
  simp [decodeCompressed, decodeQuadrant2, hop, h4, hr, hr2]

theorem decodeCompressed_cAdd (hop : cOp u = 0b10#2) (h4 : cFunct4 u = 0b1001#4) (hr : cReg u ≠ 0)
    (hr2 : cReg2 u ≠ 0) : decodeCompressed u = some (.cAdd (cReg u) (cReg2 u)) := by
  simp [decodeCompressed, decodeQuadrant2, hop, h4, hr, hr2]

/-- A unit with `unit[15:13]` 110 has neither of the funct4 values 1000 and 1001. -/
theorem decodeCompressed_cSwsp (hop : cOp u = 0b10#2) (h3 : cFunct3 u = 0b110#3) :
    decodeCompressed u = some (.cSwsp (cReg2 u) (cUimmSwsp u)) := by
  have h8 : cFunct4 u ≠ 0b1000#4 := fun h4 => by simp [cFunct3_eq, h4] at h3
  have h9 : cFunct4 u ≠ 0b1001#4 := fun h4 => by simp [cFunct3_eq, h4] at h3
  simp [decodeCompressed, decodeQuadrant2, hop, h3, h8, h9]

end CompressedRows

/-! ## Decoding an encoded instruction -/

theorem decodeStandard_encode {i : Instr} {w : BitVec 32} (hwf : i.WellFormed) (h : encode i = .word w) :
    decodeStandard w = some i := by
  cases i
  case lui =>
    obtain ⟨hop, rfl, rfl⟩ := fields_encodeU h
    exact decodeStandard_lui hop
  case auipc =>
    obtain ⟨hop, rfl, rfl⟩ := fields_encodeU h
    exact decodeStandard_auipc hop
  case jal =>
    obtain ⟨hop, rfl, rfl⟩ := fields_encodeJ h (lowZero_getLsbD hwf 0 one_pos)
    exact decodeStandard_jal hop
  case bne =>
    obtain ⟨hop, h3, rfl, rfl, rfl⟩ := fields_encodeB h (lowZero_getLsbD hwf 0 one_pos)
    exact decodeStandard_bne hop h3
  case blt =>
    obtain ⟨hop, h3, rfl, rfl, rfl⟩ := fields_encodeB h (lowZero_getLsbD hwf 0 one_pos)
    exact decodeStandard_blt hop h3
  case bge =>
    obtain ⟨hop, h3, rfl, rfl, rfl⟩ := fields_encodeB h (lowZero_getLsbD hwf 0 one_pos)
    exact decodeStandard_bge hop h3
  case bltu =>
    obtain ⟨hop, h3, rfl, rfl, rfl⟩ := fields_encodeB h (lowZero_getLsbD hwf 0 one_pos)
    exact decodeStandard_bltu hop h3
  case bgeu =>
    obtain ⟨hop, h3, rfl, rfl, rfl⟩ := fields_encodeB h (lowZero_getLsbD hwf 0 one_pos)
    exact decodeStandard_bgeu hop h3
  case lw =>
    obtain ⟨hop, h3, rfl, rfl, rfl⟩ := fields_encodeI h
    exact decodeStandard_lw hop h3
  case lbu =>
    obtain ⟨hop, h3, rfl, rfl, rfl⟩ := fields_encodeI h
    exact decodeStandard_lbu hop h3
  case sw =>
    obtain ⟨hop, h3, rfl, rfl, rfl⟩ := fields_encodeS h
    exact decodeStandard_sw hop h3
  case addi =>
    obtain ⟨hop, h3, rfl, rfl, rfl⟩ := fields_encodeI h
    exact decodeStandard_addi hop h3
  case andi =>
    obtain ⟨hop, h3, rfl, rfl, rfl⟩ := fields_encodeI h
    exact decodeStandard_andi hop h3
  case add =>
    obtain ⟨hop, h3, h7, rfl, rfl, rfl⟩ := fields_encodeR h
    exact decodeStandard_add hop h3 h7
  case sub =>
    obtain ⟨hop, h3, h7, rfl, rfl, rfl⟩ := fields_encodeR h
    exact decodeStandard_sub hop h3 h7
  case xor =>
    obtain ⟨hop, h3, h7, rfl, rfl, rfl⟩ := fields_encodeR h
    exact decodeStandard_xor hop h3 h7
  all_goals cases h

/-! ### What well-formedness says where it is more than one condition -/

theorem wf_cAddi4spn {rd : PopIdx} {imm : BitVec 10} (h : (Instr.cAddi4spn rd imm).WellFormed) :
    lowZero 2 imm = true ∧ ¬(rd = 0 ∧ imm = 0#10) := by
  simpa [Instr.WellFormed, Instr.wf, -not_and, not_and_or] using h

theorem wf_cLui {rd : RegIdx} {imm6 : BitVec 6} (h : (Instr.cLui rd imm6).WellFormed) : rd ≠ 0 ∧ rd ≠ 2 := by
  simpa [Instr.WellFormed, Instr.wf] using h

theorem wf_cMv {rd rs2 : RegIdx} (h : (Instr.cMv rd rs2).WellFormed) : rd ≠ 0 ∧ rs2 ≠ 0 := by
  simpa [Instr.WellFormed, Instr.wf] using h

theorem wf_cAdd {rd rs2 : RegIdx} (h : (Instr.cAdd rd rs2).WellFormed) : rd ≠ 0 ∧ rs2 ≠ 0 := by
  simpa [Instr.WellFormed, Instr.wf] using h

/-- The all-zero unit is no encoding of C.ADDI4SPN (30_encoding.md R113). -/
theorem encode_cAddi4spn_ne_zero {rd : PopIdx} {imm : BitVec 10} {u : BitVec 16}
    (hwf : (Instr.cAddi4spn rd imm).WellFormed) (h : encode (.cAddi4spn rd imm) = .unit u) : u ≠ 0#16 := by
  obtain ⟨hz, hne⟩ := wf_cAddi4spn hwf
  obtain ⟨-, -, rfl, rfl⟩ := fields_encodeCIW h (lowZero_getLsbD hz)
  rintro rfl
  exact hne ⟨rfl, rfl⟩

theorem decodeCompressed_encode {i : Instr} {u : BitVec 16} (hwf : i.WellFormed) (h : encode i = .unit u) :
    decodeCompressed u = some i := by
  cases i
  case cAddi4spn =>
    have hu := encode_cAddi4spn_ne_zero hwf h
    obtain ⟨hop, h3, rfl, rfl⟩ := fields_encodeCIW h (lowZero_getLsbD (wf_cAddi4spn hwf).1)
    exact decodeCompressed_cAddi4spn hop h3 hu
  case cLw =>
    obtain ⟨hop, h3, rfl, rfl, rfl⟩ := fields_encodeCLS h (lowZero_getLsbD hwf)
    exact decodeCompressed_cLw hop h3
  case cSw =>
    obtain ⟨hop, h3, rfl, rfl, rfl⟩ := fields_encodeCLS h (lowZero_getLsbD hwf)
    exact decodeCompressed_cSw hop h3
  case cAddi =>
    obtain ⟨hop, h3, rfl, rfl⟩ := fields_encodeCI h
    exact decodeCompressed_cAddi hop h3
  case cJal =>
    obtain ⟨hop, h3, rfl⟩ := fields_encodeCJ h (lowZero_getLsbD hwf 0 one_pos)
    exact decodeCompressed_cJal hop h3
  case cLi =>
    obtain ⟨hop, h3, rfl, rfl⟩ := fields_encodeCI h
    exact decodeCompressed_cLi hop h3
  case cAddi16spField0 =>
    obtain ⟨hop, h3, hr, rfl⟩ := fields_encodeC16sp h (lowZero_getLsbD hwf)
    exact decodeCompressed_cAddi16spField0 hop h3 hr
  case cAddi16spField2 =>
    obtain ⟨hop, h3, hr, rfl⟩ := fields_encodeC16sp h (lowZero_getLsbD hwf)
    exact decodeCompressed_cAddi16spField2 hop h3 hr
  case cLui =>
    obtain ⟨hop, h3, rfl, rfl⟩ := fields_encodeCI h
    obtain ⟨hr0, hr2⟩ := wf_cLui hwf
    exact decodeCompressed_cLui hop h3 hr0 hr2
  case cAndi =>
    obtain ⟨hop, h3, h2, rfl, rfl⟩ := fields_encodeCBImm h
    exact decodeCompressed_cAndi hop h3 h2
  case cJ =>
    obtain ⟨hop, h3, rfl⟩ := fields_encodeCJ h (lowZero_getLsbD hwf 0 one_pos)
    exact decodeCompressed_cJ hop h3
  case cBeqz =>
    obtain ⟨hop, h3, rfl, rfl⟩ := fields_encodeCB h (lowZero_getLsbD hwf 0 one_pos)
    exact decodeCompressed_cBeqz hop h3
  case cBnez =>
    obtain ⟨hop, h3, rfl, rfl⟩ := fields_encodeCB h (lowZero_getLsbD hwf 0 one_pos)
    exact decodeCompressed_cBnez hop h3
  case cJr =>
    obtain ⟨hop, h4, rfl, hr2⟩ := fields_encodeCR h
    exact decodeCompressed_cJr hop h4 hr2
  case cMv =>
    obtain ⟨hop, h4, rfl, rfl⟩ := fields_encodeCR h
    obtain ⟨hr, hr2⟩ := wf_cMv hwf
    exact decodeCompressed_cMv hop h4 hr hr2
  case cAdd =>
    obtain ⟨hop, h4, rfl, rfl⟩ := fields_encodeCR h
    obtain ⟨hr, hr2⟩ := wf_cAdd hwf
    exact decodeCompressed_cAdd hop h4 hr hr2
  case cSwsp =>
    obtain ⟨hop, h3, rfl, rfl⟩ := fields_encodeCSS h (lowZero_getLsbD hwf)
    exact decodeCompressed_cSwsp hop h3
  all_goals cases h

theorem decodeRaw_encode {i : Instr} (hwf : i.WellFormed) : decodeRaw (encode i) = some i := by
  cases h : encode i with
  | unit u => exact decodeCompressed_encode hwf h
  | word w => exact decodeStandard_encode hwf h

/-! ## Encoding a decoded instruction -/

section EncodeOfDecode
variable {w : BitVec 32} {u : BitVec 16} {i : Instr}

theorem encode_of_decodeBranch (hop : opcode w = 0b1100011#7) (h : decodeBranch w = some i) : encode i = .word w := by
  have hw := encodeB_fields w hop
  unfold decodeBranch at h
  split_ifs at h with h3 h3 h3 h3 h3 <;> rw [h3] at hw <;> cases h <;> exact hw

theorem encode_of_decodeLoad (hop : opcode w = 0b0000011#7) (h : decodeLoad w = some i) : encode i = .word w := by
  have hw := encodeI_fields w
  unfold decodeLoad at h
  split_ifs at h with h3 h3 <;> rw [h3, hop] at hw <;> cases h <;> exact hw

theorem encode_of_decodeStore (hop : opcode w = 0b0100011#7) (h : decodeStore w = some i) : encode i = .word w := by
  have hw := encodeS_fields w
  unfold decodeStore at h
  split_ifs at h with h3
  rw [h3, hop] at hw
  cases h
  exact hw

theorem encode_of_decodeOpImm (hop : opcode w = 0b0010011#7) (h : decodeOpImm w = some i) : encode i = .word w := by
  have hw := encodeI_fields w
  unfold decodeOpImm at h
  split_ifs at h with h3 h3 <;> rw [h3, hop] at hw <;> cases h <;> exact hw

theorem encode_of_decodeOp (hop : opcode w = 0b0110011#7) (h : decodeOp w = some i) : encode i = .word w := by
  have hw := encodeR_fields w
  unfold decodeOp at h
  split_ifs at h with h3 h7 h7 h3 h7 <;> rw [h3, h7, hop] at hw <;> cases h <;> exact hw

theorem encode_of_decodeStandard (h : decodeStandard w = some i) : encode i = .word w := by
  have hU := encodeU_fields w
  unfold decodeStandard at h
  split_ifs at h with hop hop hop hop hop hop hop hop
  · rw [hop] at hU
    cases h
    exact hU
  · rw [hop] at hU
    cases h
    exact hU
  · cases h
    exact encodeJ_fields w hop
  · exact encode_of_decodeBranch hop h
  · exact encode_of_decodeLoad hop h
  · exact encode_of_decodeStore hop h
  · exact encode_of_decodeOpImm hop h
  · exact encode_of_decodeOp hop h

theorem encode_of_decodeQuadrant0 (hop : cOp u = 0b00#2) (h : decodeQuadrant0 u = some i) : encode i = .unit u := by
  have hLS := encodeCLS_fields u hop
  unfold decodeQuadrant0 at h
  split_ifs at h with h3 _ h3 h3
  · cases h
    exact encodeCIW_fields u hop h3
  · rw [h3] at hLS
    cases h
    exact hLS
  · rw [h3] at hLS
    cases h
    exact hLS

/-- The last branch of `decodeQuadrant1` has funct3 111, the one value that the tests before it leave. -/
theorem encode_of_decodeQuadrant1 (hop : cOp u = 0b01#2) (h : decodeQuadrant1 u = some i) : encode i = .unit u := by
  have hI := encodeCI_fields u hop
  have hJ := encodeCJ_fields u hop
  have hB := encodeCB_fields u hop
  unfold decodeQuadrant1 at h
  split_ifs at h with h0 h1 h2 h3 hr hr h4 hf h5 h6
  · rw [h0] at hI; cases h; exact hI
  · rw [h1] at hJ; cases h; exact hJ
  · rw [h2] at hI; cases h; exact hI
  · have hsp := encodeC16sp_fields u hop h3
    rw [hr] at hsp; cases h; exact hsp
  · have hsp := encodeC16sp_fields u hop h3
    rw [hr] at hsp; cases h; exact hsp
  · rw [h3] at hI; cases h; exact hI
  · cases h; exact encodeCBImm_fields u hop h4 hf
  · rw [h5] at hJ; cases h; exact hJ
  · rw [h6] at hB; cases h; exact hB
  · have h7 : cFunct3 u = 0b111#3 := by
      bv_omega
    rw [h7] at hB; cases h; exact hB

theorem encode_of_decodeQuadrant2 (hop : cOp u = 0b10#2) (h : decodeQuadrant2 u = some i) : encode i = .unit u := by
  have hR := encodeCR_fields u hop
  unfold decodeQuadrant2 at h
  split_ifs at h with h4 hr2 hr h4 hne h3
  · rw [h4, hr2] at hR; cases h; exact hR
  · rw [h4] at hR; cases h; exact hR
  · rw [h4] at hR; cases h; exact hR
  · cases h; exact encodeCSS_fields u hop h3

theorem encode_of_decodeCompressed (h : decodeCompressed u = some i) : encode i = .unit u := by
  unfold decodeCompressed at h
  split_ifs at h with hop hop hop
  · exact encode_of_decodeQuadrant0 hop h
  · exact encode_of_decodeQuadrant1 hop h
  · exact encode_of_decodeQuadrant2 hop h

theorem encode_of_decodeRaw {raw : Raw} (h : decodeRaw raw = some i) : encode i = raw := by
  cases raw with
  | unit => exact encode_of_decodeCompressed h
  | word => exact encode_of_decodeStandard h

end EncodeOfDecode

/-! ## Decoding bytes (30_encoding.md R90) -/

theorem isStandardParcel_parcelOfBytes (b0 b1 : Byte) :
    isStandardParcel (parcelOfBytes b0 b1) = true ↔ b0.extractLsb' 0 2 = 3#2 := by
  rw [isStandardParcel, parcelOfBytes_lowBits, beq_iff_eq]

section DecodeBytes
variable {b0 : Byte} (b1 : Byte)

theorem decode_compressed (h : b0.extractLsb' 0 2 ≠ 3#2) (rest : List Byte) :
    decode (b0 :: b1 :: rest) = decodeUnit (parcelOfBytes b0 b1) rest :=
  if_neg (mt (isStandardParcel_parcelOfBytes b0 b1).1 h)

theorem decode_standard (h : b0.extractLsb' 0 2 = 3#2) (b2 b3 : Byte) (rest : List Byte) :
    decode (b0 :: b1 :: b2 :: b3 :: rest) =
      decodeWord (wordOfParcels (parcelOfBytes b0 b1) (parcelOfBytes b2 b3)) rest :=
  if_pos ((isStandardParcel_parcelOfBytes b0 b1).2 h)

theorem decode_truncated (h : b0.extractLsb' 0 2 = 3#2) {bytes : List Byte} (hlen : bytes.length < 2) :
    decode (b0 :: b1 :: bytes) = .truncated := by
  have hstd := (isStandardParcel_parcelOfBytes b0 b1).2 h
  match bytes, hlen with
  | [], _ => exact if_pos hstd
  | [_], _ => exact if_pos hstd

end DecodeBytes

theorem decodeUnit_eq_instr_iff {u : BitVec 16} {rest rest' : List Byte} {raw : Raw} {i : Instr} :
    decodeUnit u rest = .instr raw i rest' ↔ decodeCompressed u = some i ∧ raw = .unit u ∧ rest' = rest := by
  unfold decodeUnit
  cases decodeCompressed u with
  | none => simp
  | some j => simp [eq_comm, and_comm, and_assoc]

theorem decodeWord_eq_instr_iff {w : BitVec 32} {rest rest' : List Byte} {raw : Raw} {i : Instr} :
    decodeWord w rest = .instr raw i rest' ↔ decodeStandard w = some i ∧ raw = .word w ∧ rest' = rest := by
  unfold decodeWord
  cases decodeStandard w with
  | none => simp
  | some j => simp [eq_comm, and_comm, and_assoc]

/-- Only a word whose low two bits are 0b11 decodes: every opcode of R98 ends in them. -/
theorem lowBits_of_decodeStandard {w : BitVec 32} {i : Instr} (h : decodeStandard w = some i) :
    w.extractLsb' 0 2 = 3#2 := by
  have hlow : w.extractLsb' 0 2 = (opcode w).extractLsb' 0 2 :=
    (BitVec.extractLsb'_extractLsb'_of_le (by decide)).symm
  unfold decodeStandard at h
  rw [hlow]
  split_ifs at h with hop hop hop hop hop hop hop hop <;> rw [hop] <;> rfl

/-- No unit whose low two bits are 0b11 decodes. -/
theorem lowBits_of_decodeCompressed {u : BitVec 16} {i : Instr} (h : decodeCompressed u = some i) :
    u.extractLsb' 0 2 ≠ 3#2 := by
  intro hop
  have hnone : decodeCompressed u = none := by simp [decodeCompressed, cOp, hop]
  rw [hnone] at h
  cases h

theorem decode_unit_bytes {u : BitVec 16} {i : Instr} (h : decodeCompressed u = some i) (rest : List Byte) :
    decode ((Raw.unit u).bytes ++ rest) = .instr (.unit u) i rest := by
  have hlow : (u.extractLsb' 0 8).extractLsb' 0 2 ≠ 3#2 := by
    rw [← parcelOfBytes_lowBits _ (u.extractLsb' 8 8), parcelOfBytes_bytes]
    exact lowBits_of_decodeCompressed h
  refine (decode_compressed _ hlow rest).trans ?_
  rw [parcelOfBytes_bytes, decodeUnit_eq_instr_iff]
  exact ⟨h, rfl, rfl⟩

theorem decode_word_bytes {w : BitVec 32} {i : Instr} (h : decodeStandard w = some i) (rest : List Byte) :
    decode ((Raw.word w).bytes ++ rest) = .instr (.word w) i rest := by
  have hlow : (byteOfWord w 0).extractLsb' 0 2 = 3#2 := by
    rw [← parcelOfBytes_lowBits _ (byteOfWord w 1), firstParcel_lowBits]
    exact lowBits_of_decodeStandard h
  refine (decode_standard _ hlow _ _ rest).trans ?_
  rw [wordOfParcels_bytes, decodeWord_eq_instr_iff]
  exact ⟨h, rfl, rfl⟩

/-- Decoding bytes, said once: the decoder reads the raw instruction whose bytes come first. -/
theorem decode_eq_instr_iff {bytes rest : List Byte} {raw : Raw} {i : Instr} :
    decode bytes = .instr raw i rest ↔ decodeRaw raw = some i ∧ bytes = raw.bytes ++ rest := by
  constructor
  · intro h
    match bytes with
    | [] => cases h
    | [_] => cases h
    | b0 :: b1 :: bytes =>
      by_cases hlow : b0.extractLsb' 0 2 = 3#2
      · match bytes with
        | [] | [_] =>
          rw [decode_truncated b1 hlow (by simp)] at h
          cases h
        | b2 :: b3 :: bytes =>
          rw [decode_standard b1 hlow, decodeWord_eq_instr_iff] at h
          obtain ⟨hdec, rfl, rfl⟩ := h
          rw [wordOfParcels_rawBytes]
          exact ⟨hdec, rfl⟩
      · rw [decode_compressed b1 hlow, decodeUnit_eq_instr_iff] at h
        obtain ⟨hdec, rfl, rfl⟩ := h
        rw [Raw.bytes, parcelOfBytes_byte0, parcelOfBytes_byte1]
        exact ⟨hdec, rfl⟩
  · rintro ⟨hdec, rfl⟩
    cases raw with
    | unit => exact decode_unit_bytes hdec rest
    | word => exact decode_word_bytes hdec rest

/-! ## The round trip -/

/-- Settles O40. -/
theorem decodeOfEncodeIsTheInstruction : Obligations.DecodeOfEncodeIsTheInstruction :=
  fun _ _ hwf => decode_eq_instr_iff.2 ⟨decodeRaw_encode hwf, rfl⟩

/-- Settles O41. -/
theorem encodeOfDecodeIsTheBytes : Obligations.EncodeOfDecodeIsTheBytes := by
  intro bytes raw i rest h
  obtain ⟨hdec, hbytes⟩ := decode_eq_instr_iff.1 h
  exact ⟨decodeRaw_wf hdec, encode_of_decodeRaw hdec, hbytes⟩

/-! ## The length (30_encoding.md R90) -/

theorem decodeUnit_ne_truncated (u : BitVec 16) (rest : List Byte) : decodeUnit u rest ≠ .truncated := by
  unfold decodeUnit
  cases decodeCompressed u <;> simp

theorem decodeUnit_ne_invalidInstruction (u : BitVec 16) (rest : List Byte) (w : BitVec 32) :
    decodeUnit u rest ≠ .invalidInstruction w := by
  unfold decodeUnit
  cases decodeCompressed u <;> simp

theorem decodeWord_ne_invalidCompressed (w : BitVec 32) (rest : List Byte) (u : BitVec 16) :
    decodeWord w rest ≠ .invalidCompressed u := by
  unfold decodeWord
  cases decodeStandard w <;> simp

/-- Settles O42: the two low-bit cases, in the first one with at least four bytes or fewer. -/
theorem lengthIsToldByTheLowTwoBits : Obligations.LengthIsToldByTheLowTwoBits := by
  intro b0 b1 bytes
  by_cases hlow : b0.extractLsb' 0 2 = 3#2
  · match bytes with
    | b2 :: b3 :: bytes =>
      rw [decode_standard b1 hlow]
      refine ⟨fun rest raw i h => ?_, fun _ => decodeWord_ne_invalidCompressed _ _, fun hne => absurd hlow hne⟩
      obtain ⟨-, rfl, rfl⟩ := decodeWord_eq_instr_iff.1 h
      exact ⟨fun _ => ⟨rfl, rfl⟩, fun hne => absurd hlow hne⟩
    | [] | [_] =>
      rw [decode_truncated b1 hlow (by simp)]
      exact ⟨nofun, nofun, fun hne => absurd hlow hne⟩
  · rw [decode_compressed b1 hlow]
    refine ⟨fun rest raw i h => ?_, fun heq => absurd heq hlow,
      fun _ => ⟨decodeUnit_ne_truncated _ _, decodeUnit_ne_invalidInstruction _ _⟩⟩
    obtain ⟨-, rfl, rfl⟩ := decodeUnit_eq_instr_iff.1 h
    exact ⟨fun heq => absurd heq hlow, fun _ => ⟨rfl, rfl⟩⟩

/-! ## The opcode maps (30_encoding.md R98, R110) -/

/-- The encoding of every instruction matches a row of its mnemonic. -/
theorem encode_matches_row (i : Instr) : Laws.EncodingClass.Statement i := by
  cases i
  case lui => exact Laws.EncodingClass.lui ..
  case auipc => exact Laws.EncodingClass.auipc ..
  case jal => exact Laws.EncodingClass.jal ..
  case bne => exact Laws.EncodingClass.bne ..
  case blt => exact Laws.EncodingClass.blt ..
  case bge => exact Laws.EncodingClass.bge ..
  case bltu => exact Laws.EncodingClass.bltu ..
  case bgeu => exact Laws.EncodingClass.bgeu ..
  case lw => exact Laws.EncodingClass.lw ..
  case lbu => exact Laws.EncodingClass.lbu ..
  case sw => exact Laws.EncodingClass.sw ..
  case addi => exact Laws.EncodingClass.addi ..
  case andi => exact Laws.EncodingClass.andi ..
  case add => exact Laws.EncodingClass.add ..
  case sub => exact Laws.EncodingClass.sub ..
  case xor => exact Laws.EncodingClass.xor ..
  case cAddi4spn => exact Laws.EncodingClass.cAddi4spn ..
  case cLw => exact Laws.EncodingClass.cLw ..
  case cSw => exact Laws.EncodingClass.cSw ..
  case cAddi => exact Laws.EncodingClass.cAddi ..
  case cJal => exact Laws.EncodingClass.cJal ..
  case cLi => exact Laws.EncodingClass.cLi ..
  case cAddi16spField0 => exact Laws.EncodingClass.cAddi16spField0 ..
  case cAddi16spField2 => exact Laws.EncodingClass.cAddi16spField2 ..
  case cLui => exact Laws.EncodingClass.cLui ..
  case cAndi => exact Laws.EncodingClass.cAndi ..
  case cJ => exact Laws.EncodingClass.cJ ..
  case cBeqz => exact Laws.EncodingClass.cBeqz ..
  case cBnez => exact Laws.EncodingClass.cBnez ..
  case cJr => exact Laws.EncodingClass.cJr ..
  case cMv => exact Laws.EncodingClass.cMv ..
  case cAdd => exact Laws.EncodingClass.cAdd ..
  case cSwsp => exact Laws.EncodingClass.cSwsp ..

theorem standardRow_of_decode {w : BitVec 32} {i : Instr} (h : decodeStandard w = some i) :
    ∃ m k, (mnemonic i, m, k) ∈ standardRows ∧ w &&& k = m := by
  have hrow := encode_matches_row i
  rw [Laws.EncodingClass.Statement, encode_of_decodeStandard h] at hrow
  exact hrow

theorem compressedRow_of_decode {u : BitVec 16} {i : Instr} (h : decodeCompressed u = some i) :
    ∃ m k, (mnemonic i, m, k) ∈ compressedRows ∧ u &&& k = m := by
  have hrow := encode_matches_row i
  rw [Laws.EncodingClass.Statement, encode_of_decodeCompressed h] at hrow
  exact hrow

/-- A word of a row has the fields that the row's mask covers, so the decoder answers that row's instruction. -/
theorem decodeStandard_of_row {w m k : BitVec 32} {name : String} (hrow : (name, m, k) ∈ standardRows)
    (h : w &&& k = m) : ∃ i, decodeStandard w = some i ∧ mnemonic i = name := by
  simp only [standardRows, List.cons_append, List.nil_append, List.mem_cons, List.not_mem_nil, or_false,
    Prod.mk.injEq] at hrow
  obtain ⟨rfl, rfl, rfl⟩ | ⟨rfl, rfl, rfl⟩ | ⟨rfl, rfl, rfl⟩ | ⟨rfl, rfl, rfl⟩ | ⟨rfl, rfl, rfl⟩ | ⟨rfl, rfl, rfl⟩ |
    ⟨rfl, rfl, rfl⟩ | ⟨rfl, rfl, rfl⟩ | ⟨rfl, rfl, rfl⟩ | ⟨rfl, rfl, rfl⟩ | ⟨rfl, rfl, rfl⟩ | ⟨rfl, rfl, rfl⟩ |
    ⟨rfl, rfl, rfl⟩ | ⟨rfl, rfl, rfl⟩ | ⟨rfl, rfl, rfl⟩ | ⟨rfl, rfl, rfl⟩ := hrow
  · exact ⟨_, decodeStandard_lui (field_of_mask 0 7 h rfl), rfl⟩
  · exact ⟨_, decodeStandard_auipc (field_of_mask 0 7 h rfl), rfl⟩
  · exact ⟨_, decodeStandard_jal (field_of_mask 0 7 h rfl), rfl⟩
  · exact ⟨_, decodeStandard_bne (field_of_mask 0 7 h rfl) (field_of_mask 12 3 h rfl), rfl⟩
  · exact ⟨_, decodeStandard_blt (field_of_mask 0 7 h rfl) (field_of_mask 12 3 h rfl), rfl⟩
  · exact ⟨_, decodeStandard_bge (field_of_mask 0 7 h rfl) (field_of_mask 12 3 h rfl), rfl⟩
  · exact ⟨_, decodeStandard_bltu (field_of_mask 0 7 h rfl) (field_of_mask 12 3 h rfl), rfl⟩
  · exact ⟨_, decodeStandard_bgeu (field_of_mask 0 7 h rfl) (field_of_mask 12 3 h rfl), rfl⟩
  · exact ⟨_, decodeStandard_lw (field_of_mask 0 7 h rfl) (field_of_mask 12 3 h rfl), rfl⟩
  · exact ⟨_, decodeStandard_lbu (field_of_mask 0 7 h rfl) (field_of_mask 12 3 h rfl), rfl⟩
  · exact ⟨_, decodeStandard_sw (field_of_mask 0 7 h rfl) (field_of_mask 12 3 h rfl), rfl⟩
  · exact ⟨_, decodeStandard_addi (field_of_mask 0 7 h rfl) (field_of_mask 12 3 h rfl), rfl⟩
  · exact ⟨_, decodeStandard_andi (field_of_mask 0 7 h rfl) (field_of_mask 12 3 h rfl), rfl⟩
  · exact ⟨_, decodeStandard_add (field_of_mask 0 7 h rfl) (field_of_mask 12 3 h rfl) (field_of_mask 25 7 h rfl), rfl⟩
  · exact ⟨_, decodeStandard_sub (field_of_mask 0 7 h rfl) (field_of_mask 12 3 h rfl) (field_of_mask 25 7 h rfl), rfl⟩
  · exact ⟨_, decodeStandard_xor (field_of_mask 0 7 h rfl) (field_of_mask 12 3 h rfl) (field_of_mask 25 7 h rfl), rfl⟩

/-- Settles O37. -/
theorem standardDecoderIsTheOpcodeMap : Obligations.StandardDecoderIsTheOpcodeMap := by
  intro w name
  constructor
  · rintro ⟨i, hdec, rfl⟩
    exact standardRow_of_decode hdec
  · rintro ⟨m, k, hrow, hmask⟩
    exact decodeStandard_of_row hrow hmask

/-- A register field that is not the value `b` is not the register number `b`. -/
theorem cReg_ne {u : BitVec 16} {b : BitVec 5} (h : u.extractLsb' 7 5 ≠ b) : cReg u ≠ regOf b :=
  mt (cReg_eq_iff u b).1 h

theorem cReg2_ne {u : BitVec 16} {b : BitVec 5} (h : u.extractLsb' 2 5 ≠ b) : cReg2 u ≠ regOf b :=
  mt (cReg2_eq_iff u b).1 h

/-- A unit of a row whose guard holds has the fields that the row's mask covers, and the guard rules out the values that
another row claims. -/
theorem decodeCompressed_of_row {u m k : BitVec 16} {name : String} (hrow : (name, m, k) ∈ compressedRows)
    (h : u &&& k = m) (hguard : compressedGuard name u) : ∃ i, decodeCompressed u = some i ∧ mnemonic i = name := by
  obtain ⟨hspn, hlui, hmv, hadd⟩ := hguard
  simp only [compressedRows, List.cons_append, List.nil_append, List.mem_cons, List.not_mem_nil, or_false,
    Prod.mk.injEq] at hrow
  obtain ⟨rfl, rfl, rfl⟩ | ⟨rfl, rfl, rfl⟩ | ⟨rfl, rfl, rfl⟩ | ⟨rfl, rfl, rfl⟩ | ⟨rfl, rfl, rfl⟩ | ⟨rfl, rfl, rfl⟩ |
    ⟨rfl, rfl, rfl⟩ | ⟨rfl, rfl, rfl⟩ | ⟨rfl, rfl, rfl⟩ | ⟨rfl, rfl, rfl⟩ | ⟨rfl, rfl, rfl⟩ | ⟨rfl, rfl, rfl⟩ |
    ⟨rfl, rfl, rfl⟩ | ⟨rfl, rfl, rfl⟩ | ⟨rfl, rfl, rfl⟩ | ⟨rfl, rfl, rfl⟩ | ⟨rfl, rfl, rfl⟩ := hrow
  · exact ⟨_, decodeCompressed_cAddi4spn (field_of_mask 0 2 h rfl) (field_of_mask 13 3 h rfl) (hspn rfl), rfl⟩
  · exact ⟨_, decodeCompressed_cLw (field_of_mask 0 2 h rfl) (field_of_mask 13 3 h rfl), rfl⟩
  · exact ⟨_, decodeCompressed_cSw (field_of_mask 0 2 h rfl) (field_of_mask 13 3 h rfl), rfl⟩
  · exact ⟨_, decodeCompressed_cAddi (field_of_mask 0 2 h rfl) (field_of_mask 13 3 h rfl), rfl⟩
  · exact ⟨_, decodeCompressed_cJal (field_of_mask 0 2 h rfl) (field_of_mask 13 3 h rfl), rfl⟩
  · exact ⟨_, decodeCompressed_cLi (field_of_mask 0 2 h rfl) (field_of_mask 13 3 h rfl), rfl⟩
  · have hr : cReg u = 0 := (cReg_eq_iff u 0#5).2 (field_of_mask 7 5 h rfl)
    exact ⟨_, decodeCompressed_cAddi16spField0 (field_of_mask 0 2 h rfl) (field_of_mask 13 3 h rfl) hr, rfl⟩
  · have hr : cReg u = 2 := (cReg_eq_iff u 2#5).2 (field_of_mask 7 5 h rfl)
    exact ⟨_, decodeCompressed_cAddi16spField2 (field_of_mask 0 2 h rfl) (field_of_mask 13 3 h rfl) hr, rfl⟩
  · obtain ⟨hr0, hr2⟩ := hlui rfl
    exact ⟨_, decodeCompressed_cLui (field_of_mask 0 2 h rfl) (field_of_mask 13 3 h rfl) (cReg_ne hr0) (cReg_ne hr2), rfl⟩
  · exact ⟨_, decodeCompressed_cAndi (field_of_mask 0 2 h rfl) (field_of_mask 13 3 h rfl) (field_of_mask 10 2 h rfl), rfl⟩
  · exact ⟨_, decodeCompressed_cJ (field_of_mask 0 2 h rfl) (field_of_mask 13 3 h rfl), rfl⟩
  · exact ⟨_, decodeCompressed_cBeqz (field_of_mask 0 2 h rfl) (field_of_mask 13 3 h rfl), rfl⟩
  · exact ⟨_, decodeCompressed_cBnez (field_of_mask 0 2 h rfl) (field_of_mask 13 3 h rfl), rfl⟩
  · have hr2 : cReg2 u = 0 := (cReg2_eq_iff u 0#5).2 (field_of_mask 2 5 h rfl)
    exact ⟨_, decodeCompressed_cJr (field_of_mask 0 2 h rfl) (field_of_mask 12 4 h rfl) hr2, rfl⟩
  · obtain ⟨hr, hr2⟩ := hmv rfl
    exact ⟨_, decodeCompressed_cMv (field_of_mask 0 2 h rfl) (field_of_mask 12 4 h rfl) (cReg_ne hr) (cReg2_ne hr2), rfl⟩
  · obtain ⟨hr, hr2⟩ := hadd rfl
    exact ⟨_, decodeCompressed_cAdd (field_of_mask 0 2 h rfl) (field_of_mask 12 4 h rfl) (cReg_ne hr) (cReg2_ne hr2), rfl⟩
  · exact ⟨_, decodeCompressed_cSwsp (field_of_mask 0 2 h rfl) (field_of_mask 13 3 h rfl), rfl⟩

/-- The encoding of a well-formed instruction meets the guard of its mnemonic; four mnemonics have one (R110). -/
theorem guard_of_encode {i : Instr} {u : BitVec 16} (hwf : i.WellFormed) (h : encode i = .unit u) :
    compressedGuard (mnemonic i) u := by
  cases i
  case cAddi4spn =>
    have hu := encode_cAddi4spn_ne_zero hwf h
    simpa [compressedGuard, mnemonic] using hu
  case cLui =>
    obtain ⟨-, -, rfl, -⟩ := fields_encodeCI h
    obtain ⟨hr0, hr2⟩ := wf_cLui hwf
    have hguard := And.intro (mt (cReg_eq_iff u 0#5).2 hr0) (mt (cReg_eq_iff u 2#5).2 hr2)
    simpa [compressedGuard, mnemonic] using hguard
  case cMv =>
    obtain ⟨-, -, rfl, rfl⟩ := fields_encodeCR h
    obtain ⟨hr, hr2⟩ := wf_cMv hwf
    have hguard := And.intro (mt (cReg_eq_iff u 0#5).2 hr) (mt (cReg2_eq_iff u 0#5).2 hr2)
    simpa [compressedGuard, mnemonic] using hguard
  case cAdd =>
    obtain ⟨-, -, rfl, rfl⟩ := fields_encodeCR h
    obtain ⟨hr, hr2⟩ := wf_cAdd hwf
    have hguard := And.intro (mt (cReg_eq_iff u 0#5).2 hr) (mt (cReg2_eq_iff u 0#5).2 hr2)
    simpa [compressedGuard, mnemonic] using hguard
  all_goals simp [compressedGuard, mnemonic]

/-- Settles O38. -/
theorem compressedDecoderIsTheOpcodeMap : Obligations.CompressedDecoderIsTheOpcodeMap := by
  intro u name
  constructor
  · rintro ⟨i, hdec, rfl⟩
    obtain ⟨m, k, hrow, hmask⟩ := compressedRow_of_decode hdec
    exact ⟨m, k, hrow, hmask, guard_of_encode (decodeCompressed_wf hdec) (encode_of_decodeCompressed hdec)⟩
  · rintro ⟨m, k, hrow, hmask, hguard⟩
    exact decodeCompressed_of_row hrow hmask hguard

/-! ## The invalid compressed units (30_encoding.md R113), quadrant by quadrant -/

theorem decodeQuadrant0_eq_none_iff (u : BitVec 16) :
    decodeQuadrant0 u = none ↔
      (cFunct3 u = 1#3 ∨ cFunct3 u = 3#3 ∨ cFunct3 u = 4#3 ∨ cFunct3 u = 5#3 ∨ cFunct3 u = 7#3) ∨ u = 0#16 := by
  unfold decodeQuadrant0
  split_ifs with h0 hu h2 h6
  · simp [hu]
  · simp [h0, hu]
  · have hu : u ≠ 0#16 := by rintro rfl; exact h0 rfl
    simp [h2, hu]
  · have hu : u ≠ 0#16 := by rintro rfl; exact h0 rfl
    simp [h6, hu]
  · refine iff_of_true rfl (.inl ?_)
    bv_omega

/-- In this quadrant every funct3 but 100 always answers an instruction. -/
theorem decodeQuadrant1_eq_none_iff (u : BitVec 16) :
    decodeQuadrant1 u = none ↔ cFunct3 u = 4#3 ∧ cFunct2 u ≠ 2#2 := by
  by_cases h4 : cFunct3 u = 4#3
  · simp [decodeQuadrant1, h4]
  · refine iff_of_false ?_ fun h => h4 h.1
    unfold decodeQuadrant1
    split_ifs <;> simp

/-- The two funct4 values that C.JR, C.MV and C.ADD share one funct3 under. -/
theorem cFunct3_eq_four_iff (u : BitVec 16) : cFunct3 u = 4#3 ↔ cFunct4 u = 8#4 ∨ cFunct4 u = 9#4 := by
  have hval : (cFunct3 u).toNat = (cFunct4 u).toNat / 2 % 8 := by
    rw [cFunct3_eq, BitVec.extractLsb'_toNat, Nat.shiftRight_eq_div_pow]
  bv_omega

theorem decodeQuadrant2_eq_none_iff (u : BitVec 16) :
    decodeQuadrant2 u = none ↔
      (cFunct3 u = 0#3 ∨ cFunct3 u = 1#3 ∨ cFunct3 u = 2#3 ∨ cFunct3 u = 3#3 ∨ cFunct3 u = 5#3 ∨ cFunct3 u = 7#3) ∨
        (cFunct4 u = 8#4 ∧ cReg u = 0 ∧ cReg2 u ≠ 0) ∨ (cFunct4 u = 9#4 ∧ (cReg u = 0 ∨ cReg2 u = 0)) := by
  unfold decodeQuadrant2
  split_ifs with h8 hr2 hr h9 hr h6
  · simp [cFunct3_eq, h8, hr2]
  · simp [h8, hr2, hr]
  · simp [cFunct3_eq, h8, hr]
  · simp [h9, hr]
  · simp [cFunct3_eq, h9, hr]
  · have h8 : cFunct4 u ≠ 8#4 := h8
    simp [h6, h8, h9]
  · refine iff_of_true rfl (.inl ?_)
    have h4 : cFunct3 u ≠ 4#3 := fun h4 => ((cFunct3_eq_four_iff u).1 h4).elim h8 h9
    bv_omega

section Quadrants
variable {u : BitVec 16}

theorem decodeCompressed_of_op0 (hop : cOp u = 0b00#2) : decodeCompressed u = decodeQuadrant0 u := by
  simp [decodeCompressed, hop]

theorem decodeCompressed_of_op1 (hop : cOp u = 0b01#2) : decodeCompressed u = decodeQuadrant1 u := by
  simp [decodeCompressed, hop]

theorem decodeCompressed_of_op2 (hop : cOp u = 0b10#2) : decodeCompressed u = decodeQuadrant2 u := by
  simp [decodeCompressed, hop]

end Quadrants

/-- Settles O39: in each quadrant the classes of the other two quadrants are empty. -/
theorem invalidCompressedUnitsAreTheListedOnes : Obligations.InvalidCompressedUnitsAreTheListedOnes := by
  intro u op f3 f4 r r2 hop
  have hr : cReg u = 0 ↔ r = 0#5 := cReg_eq_iff u 0#5
  have hr2 : cReg2 u = 0 ↔ r2 = 0#5 := cReg2_eq_iff u 0#5
  have hzero : op ≠ 0#2 → u ≠ 0#16 := by
    rintro hne rfl
    exact hne rfl
  obtain h | h | h : op = 0#2 ∨ op = 1#2 ∨ op = 2#2 := by
    generalize op = p at hop
    bv_omega
  · rw [decodeCompressed_of_op0 h, decodeQuadrant0_eq_none_iff]
    simp [h, f3, cFunct3]
  · rw [decodeCompressed_of_op1 h, decodeQuadrant1_eq_none_iff]
    simp [h, hzero, f3, cFunct3, cFunct2]
  · rw [decodeCompressed_of_op2 h, decodeQuadrant2_eq_none_iff, ne_eq, hr, hr2]
    simp [h, hzero, f3, f4, cFunct3, cFunct4]

/-! ## Constants in two instructions (30_encoding.md R120) -/

theorem immU_hi20_toNat (v : Word) :
    (immU (hi20 v)).toNat = (v.toNat + 0x800) % 2 ^ 32 / 2 ^ 12 * 2 ^ 12 := by
  have hbits : (hi20 v).toNat = (v + 0x800#32).toNat / 2 ^ 12 := by
    rw [hi20, BitVec.extractLsb'_toNat, Nat.shiftRight_eq_div_pow]
    omega
  rw [immU, BitVec.toNat_append, hbits, Nat.shiftLeft_eq]
  simp

theorem sext_lo12_toNat (v : Word) :
    (sext (lo12 v)).toNat = v.toNat % 2 ^ 12 + if 2 ^ 11 ≤ v.toNat % 2 ^ 12 then 2 ^ 32 - 2 ^ 12 else 0 := by
  have hbits : (lo12 v).toNat = v.toNat % 2 ^ 12 := by rw [lo12, BitVec.extractLsb'_toNat, Nat.shiftRight_zero]
  have hlt : v.toNat % 2 ^ 12 < 2 ^ 32 := by omega
  rw [sext, BitVec.toNat_signExtend, BitVec.toNat_setWidth, BitVec.msb_eq_decide, hbits, Nat.mod_eq_of_lt hlt]
  simp

/-- The 0x800 that `hi20` adds before it cuts makes up for the sign of the part that ADDI adds. -/
theorem immU_hi20_add_sext_lo12 (v : Word) : immU (hi20 v) + sext (lo12 v) = v := by
  refine BitVec.eq_of_toNat_eq ?_
  rw [BitVec.toNat_add, immU_hi20_toNat, sext_lo12_toNat]
  split <;> omega

/-- What `writeBack` leaves in its destination. -/
theorem readReg_advance_writeReg_self {rd : RegIdx} (hrd : rd ≠ 0) (v len : Word) (s : State) :
    ((s.writeReg rd v).advance len).readReg rd = v := by
  simp [State.readReg_writeReg, hrd]

/-- Settles O60. -/
theorem loadConstantExpansionsReachEveryValue : Obligations.LoadConstantExpansionsReachEveryValue := by
  intro rd v s hrd
  refine ⟨⟨_, _, rfl, rfl, ?_⟩, ⟨_, _, rfl, rfl, ?_⟩⟩
  · rw [readReg_advance_writeReg_self hrd, readReg_advance_writeReg_self hrd, immU_hi20_add_sext_lo12]
  · rw [readReg_advance_writeReg_self hrd, readReg_advance_writeReg_self hrd, BitVec.add_assoc, immU_hi20_add_sext_lo12]

/-! ## Encodings written out (30_encoding.md R98, R110, R117; 95_test_vectors.md) -/

/-- Settles O35: fourteen closed evaluations of the decoders. -/
theorem wordsOfTheSpecDecode : Obligations.WordsOfTheSpecDecode := by
  unfold Obligations.WordsOfTheSpecDecode
  refine ⟨?_, ?_, ?_, ?_, ?_, ?_, ?_, ?_, ?_, ?_, ?_, ?_, ?_, ?_⟩ <;> rfl

/-- Settles O36: thirty-one closed evaluations; the immediate is the one the decoder answers. -/
theorem signedImmediateExtremesDecode : Obligations.SignedImmediateExtremesDecode := by
  unfold Obligations.SignedImmediateExtremesDecode
  refine ⟨?_, ?_, ?_, ?_, ?_, ?_, ?_, ?_, ?_, ?_, ?_, ?_, ?_, ?_, ?_, ?_, ?_, ?_, ?_, ?_, ?_, ?_, ?_, ?_, ?_, ?_, ?_, ?_,
    ?_, ?_, ?_⟩ <;> exact ⟨_, rfl, rfl⟩

end Sys2Proof.Machine

/-! Proofs for the family `40_standard_integer.md`: the values that LUI, AUIPC, ADDI, ANDI, ADD, SUB and XOR write, and the
register-register shapes with no row. -/

namespace Sys2Proof.Machine

/-! ## Results as exact sums and differences, modulo 2^32 (40_standard_integer.md R140) -/

theorem immU_eq_ofNat (imm20 : BitVec 20) : immU imm20 = BitVec.ofNat 32 (imm20.toNat * 4096) := by
  refine BitVec.eq_of_toNat_eq ?_
  have hfits : imm20.toNat * 4096 < 4294967296 := by omega
  rw [immU, BitVec.toNat_append, Nat.shiftLeft_eq]
  simp [Nat.mod_eq_of_lt hfits]

theorem add_immU_eq_ofNat (a : Word) (imm20 : BitVec 20) :
    a + immU imm20 = BitVec.ofNat 32 (a.toNat + imm20.toNat * 4096) := by
  rw [immU_eq_ofNat, BitVec.ofNat_add, BitVec.ofNat_toNat, BitVec.setWidth_eq]

theorem sext_eq_ofInt {n : Nat} (imm : BitVec n) : sext imm = BitVec.ofInt 32 imm.toInt := rfl

theorem add_sext_eq_ofInt {n : Nat} (a : Word) (imm : BitVec n) :
    a + sext imm = BitVec.ofInt 32 (a.toNat + imm.toInt) := by
  rw [sext_eq_ofInt, BitVec.ofInt_add, BitVec.ofInt_natCast, BitVec.ofNat_toNat, BitVec.setWidth_eq]

theorem sub_eq_ofInt (a b : Word) : a - b = BitVec.ofInt 32 (a.toNat - b.toNat : Int) := by
  simp [Int.sub_eq_add_neg, BitVec.ofInt_add, BitVec.ofInt_neg, BitVec.sub_eq_add_neg]

/-! ## The register-register opcode with a funct7 of no row (30_encoding.md R99) -/

section InvalidFunct7
variable {w : BitVec 32}

theorem decodeStandard_op (hop : opcode w = 0b0110011#7) : decodeStandard w = decodeOp w := by
  simp [decodeStandard, hop]

theorem decodeStandard_addSub_invalid (hop : opcode w = 0b0110011#7) (h3 : funct3 w = 0b000#3)
    (hadd : funct7 w ≠ 0x00#7) (hsub : funct7 w ≠ 0x20#7) : decodeStandard w = none := by
  simp [decodeStandard_op hop, decodeOp, h3, hadd, hsub]

theorem decodeStandard_xor_invalid (hop : opcode w = 0b0110011#7) (h3 : funct3 w = 0b100#3)
    (hxor : funct7 w ≠ 0x00#7) : decodeStandard w = none := by
  simp [decodeStandard_op hop, decodeOp, h3, hxor]

end InvalidFunct7

/-! ## The obligations: the row's mask gives the fields, the meaning is one `writeBack` -/

/-- Settles O15. -/
theorem luiAndAuipcWriteTheUpperImmediate : Obligations.LuiAndAuipcWriteTheUpperImmediate := by
  refine ⟨fun w h => ?_, fun w h => ?_, fun rd imm20 s => ?_, fun rd imm20 s => ?_⟩
  · exact decodeStandard_lui (field_of_mask 0 7 h rfl)
  · exact decodeStandard_auipc (field_of_mask 0 7 h rfl)
  · rw [← immU_eq_ofNat]
    exact writeBack_writes ..
  · rw [← add_immU_eq_ofNat]
    exact writeBack_writes ..

/-- Settles O16. -/
theorem addiAndAndiResult : Obligations.AddiAndAndiResult := by
  refine ⟨fun w h => ?_, fun w h => ?_, fun rd rs1 imm s => ?_, fun rd rs1 imm s => ?_⟩
  · exact decodeStandard_addi (field_of_mask 0 7 h rfl) (field_of_mask 12 3 h rfl)
  · exact decodeStandard_andi (field_of_mask 0 7 h rfl) (field_of_mask 12 3 h rfl)
  · rw [← add_sext_eq_ofInt]
    exact writeBack_writes ..
  · exact writeBack_writes ..

/-- Settles O17. -/
theorem addSubXorResult : Obligations.AddSubXorResult := by
  refine ⟨fun w h => ?_, fun w h => ?_, fun w h => ?_, fun w h hadd hsub => ?_, fun w h hxor => ?_,
    fun rd rs1 rs2 s => ?_, fun rd rs1 rs2 s => ?_, fun rd rs1 rs2 s => ?_⟩
  · exact decodeStandard_add (field_of_mask 0 7 h rfl) (field_of_mask 12 3 h rfl) (field_of_mask 25 7 h rfl)
  · exact decodeStandard_sub (field_of_mask 0 7 h rfl) (field_of_mask 12 3 h rfl) (field_of_mask 25 7 h rfl)
  · exact decodeStandard_xor (field_of_mask 0 7 h rfl) (field_of_mask 12 3 h rfl) (field_of_mask 25 7 h rfl)
  · exact decodeStandard_addSub_invalid (field_of_mask 0 7 h rfl) (field_of_mask 12 3 h rfl) hadd hsub
  · exact decodeStandard_xor_invalid (field_of_mask 0 7 h rfl) (field_of_mask 12 3 h rfl) hxor
  · rw [← BitVec.add_def]
    exact writeBack_writes ..
  · rw [← sub_eq_ofInt]
    exact writeBack_writes ..
  · exact writeBack_writes ..

end Sys2Proof.Machine

/-! Proofs for the family `41_standard_loadstore.md`: effective addresses, and what LBU, LW and SW do in each region. -/

namespace Sys2Proof.Machine

/-! ## Effective addresses as sums, modulo 2^32 (41_standard_loadstore.md R160; 44_compressed_loadstore.md R210) -/

theorem eaStandard_toNat (rs1 : RegIdx) (imm : BitVec 12) (s : State) :
    ((eaStandard rs1 imm s).toNat : Int) = ((s.readReg rs1).toNat + imm.toInt) % 2 ^ 32 := by
  rw [eaStandard, add_sext_eq_ofInt, BitVec.toNat_ofInt]
  exact Int.toNat_of_nonneg (Int.emod_nonneg _ (by decide))

theorem eaCompressed_toNat {n : Nat} (base : RegIdx) (uimm : BitVec n) (s : State) :
    (eaCompressed base uimm s).toNat = ((s.readReg base).toNat + uimm.toNat) % 2 ^ 32 := by
  rw [eaCompressed, zext, BitVec.toNat_add, BitVec.toNat_setWidth, Nat.add_mod_mod]

/-- Settles O14. -/
theorem effectiveAddressesWrap : Obligations.EffectiveAddressesWrap :=
  ⟨eaStandard_toNat, eaCompressed_toNat, eaCompressed_toNat⟩

/-! ## How an access that faults ends (R160; 60_exceptions.md R270) -/

theorem raise_halts (f : HaltReason) (s : State) : HaltsWith f s (raise f s) := raise_eq s f

theorem finishStore_of_error {f : HaltReason} {r : Except HaltReason State} (len : Word) (s : State)
    (h : r = .error f) : HaltsWith f s (finishStore len r s) := by
  rw [h, finishStore]
  exact raise_halts f s

/-! ## How a load ends, by what its access answers (R160) -/

/-- A register write after an event is a register write that emits it first. -/
theorem WritesRegister.of_emit {s t : State} {e : Event} {rd : RegIdx} {v p : Word}
    (h : WritesRegister (s.emit e) t rd v p []) : WritesRegister s t rd v p [e] where
  destination := h.destination
  otherRegisters := h.otherRegisters
  pc := h.pc
  memory := h.memory
  run := h.run
  parameters := h.parameters
  events := by rw [h.events, List.append_nil, State.emit_events]

/-- The end of an I/O load: the diagnostic comes before the write. -/
theorem writeBack_emit_writes (rd : RegIdx) (v len : Word) (e : Event) (s : State) :
    ∃ t, writeBack rd v len (s.emit e) = .next t ∧ WritesRegister s t rd v (s.pc + len) [e] := by
  obtain ⟨t, hnext, hw⟩ := writeBack_writes rd v len (s.emit e)
  exact ⟨t, hnext, hw.of_emit⟩

section LoadEnds
variable {rd : RegIdx} {ea len : Word} {s u : State}

theorem loadWordInto_of_ok {v : Word} (h : s.loadWord ea = .ok (v, u)) :
    loadWordInto rd ea len s = writeBack rd v len u := by rw [loadWordInto, h]

theorem loadWordInto_of_error {f : HaltReason} (h : s.loadWord ea = .error f) :
    HaltsWith f s (loadWordInto rd ea len s) := by
  rw [loadWordInto, h]
  exact raise_halts f s

theorem loadByteInto_of_ok {b : Byte} (h : s.loadByte ea = .ok (b, u)) :
    loadByteInto rd ea len s = writeBack rd (b.setWidth 32) len u := by rw [loadByteInto, h]

theorem loadByteInto_of_error {f : HaltReason} (h : s.loadByte ea = .error f) :
    HaltsWith f s (loadByteInto rd ea len s) := by
  rw [loadByteInto, h]
  exact raise_halts f s

end LoadEnds

/-! ## A word or byte load into a register, by region (20_memory.md R56, R57) -/

section Loads
variable (rd : RegIdx) {ea : Word} (len : Word) {s : State}

theorem loadWordInto_io (h : 0x40000000 ≤ ea.toNat) :
    ∃ t, loadWordInto rd ea len s = .next t ∧ WritesRegister s t rd 0#32 (s.pc + len) [.ioLoad ea] := by
  rw [loadWordInto_of_ok (s.loadWord_io ea h)]
  exact writeBack_emit_writes ..

theorem loadWordInto_memory (h : ea.toNat < 0x40000000) (hin : 4 * (ea.toNat / 4) + 4 ≤ s.cfg.memSize) :
    ∃ t, loadWordInto rd ea len s = .next t ∧
      WritesRegister s t rd (s.memRead32 (4 * (ea.toNat / 4))) (s.pc + len) [] := by
  rw [loadWordInto_of_ok (s.loadWord_memory ea h hin)]
  exact writeBack_writes ..

theorem loadWordInto_outOfRange (h : ea.toNat < 0x40000000) (hout : s.cfg.memSize < 4 * (ea.toNat / 4) + 4) :
    HaltsWith (.loadOutOfRange ea) s (loadWordInto rd ea len s) :=
  loadWordInto_of_error (s.loadWord_error ea h hout)

theorem loadByteInto_io (h : 0x40000000 ≤ ea.toNat) :
    ∃ t, loadByteInto rd ea len s = .next t ∧ WritesRegister s t rd 0#32 (s.pc + len) [.ioLoad ea] := by
  rw [loadByteInto_of_ok (s.loadByte_io ea h)]
  exact writeBack_emit_writes ..

theorem loadByteInto_memory (h : ea.toNat < 0x40000000) (hin : ea.toNat < s.cfg.memSize) :
    ∃ t, loadByteInto rd ea len s = .next t ∧
      WritesRegister s t rd (BitVec.ofNat 32 (s.readByte ea.toNat).toNat) (s.pc + len) [] := by
  rw [loadByteInto_of_ok (s.loadByte_memory ea h hin), BitVec.ofNat_toNat]
  exact writeBack_writes ..

theorem loadByteInto_outOfRange (h : ea.toNat < 0x40000000) (hout : s.cfg.memSize ≤ ea.toNat) :
    HaltsWith (.loadOutOfRange ea) s (loadByteInto rd ea len s) :=
  loadByteInto_of_error (s.loadByte_error ea h (Nat.lt_succ_of_le hout))

end Loads

/-! ## A routed store, by region (20_memory.md R58) -/

/-- A dropped store: only its diagnostic and the pc are new. -/
theorem emit_advance_moves (e : Event) (len : Word) (s : State) :
    MovesPc s ((s.emit e).advance len) (s.pc + len) [e] where
  registers _ := rfl
  pc := rfl
  memory _ := rfl
  run := rfl
  parameters := rfl
  events := rfl

section Stores
variable {ea : Word} (v len : Word) {s : State}

theorem finishStore_storeWord_io (h : 0x40000000 ≤ ea.toNat) :
    ∃ t, finishStore len (s.storeWord ea v) s = .next t ∧ MovesPc s t (s.pc + len) [.ioStore ea v] := by
  rw [s.storeWord_io ea v h]
  exact ⟨_, rfl, emit_advance_moves ..⟩

theorem finishStore_storeWord_bound (hbound : 65532 < ea.toNat) (h : ea.toNat < 0x40000000) :
    HaltsWith (.storeBound ea) s (finishStore len (s.storeWord ea v) s) :=
  finishStore_of_error len s (s.storeWord_bound ea v hbound h)

theorem finishStore_storeWord_memory (hm : s.mem.wf = true) (hbound : ea.toNat ≤ 65532)
    (hin : 4 * (ea.toNat / 4) + 4 ≤ s.cfg.memSize) :
    ∃ t, finishStore len (s.storeWord ea v) s = .next t ∧ StoresWord s t (4 * (ea.toNat / 4)) v (s.pc + len) := by
  rw [s.storeWord_memory ea v hbound hin]
  exact ⟨_, rfl, memWrite32_stores s _ v len hm⟩

theorem finishStore_storeWord_outOfRange (hbound : ea.toNat ≤ 65532)
    (hout : s.cfg.memSize < 4 * (ea.toNat / 4) + 4) :
    HaltsWith (.storeOutOfRange ea) s (finishStore len (s.storeWord ea v) s) :=
  finishStore_of_error len s (s.storeWord_error ea v hbound hout)

end Stores

/-! ## The obligations: the row's mask gives the fields, the meaning is one load or store at `eaStandard` -/

/-- Settles O18. -/
theorem lbuByRegion : Obligations.LbuByRegion := by
  refine ⟨fun w h => ?_, fun rd rs1 imm s => ⟨fun hio => ?_, fun hlow hin => ?_, fun hlow hout => ?_⟩⟩
  · exact decodeStandard_lbu (field_of_mask 0 7 h rfl) (field_of_mask 12 3 h rfl)
  · exact loadByteInto_io rd 4#32 hio
  · exact loadByteInto_memory rd 4#32 hlow hin
  · exact loadByteInto_outOfRange rd 4#32 hlow hout

/-- Settles O19. -/
theorem lwByRegion : Obligations.LwByRegion := by
  refine ⟨fun w h => ?_, fun rd rs1 imm s => ⟨fun hio => ?_, fun hlow hin => ?_, fun hlow hout => ?_⟩⟩
  · exact decodeStandard_lw (field_of_mask 0 7 h rfl) (field_of_mask 12 3 h rfl)
  · exact loadWordInto_io rd 4#32 hio
  · exact loadWordInto_memory rd 4#32 hlow hin
  · exact loadWordInto_outOfRange rd 4#32 hlow hout

/-- Settles O20. -/
theorem swByRegion : Obligations.SwByRegion := by
  refine ⟨fun w h => ?_, fun rs2 rs1 imm s hm => ⟨fun hio => ?_, fun hbound hlow => ?_, fun hbound hin => ?_,
    fun hbound hout => ?_⟩⟩
  · exact decodeStandard_sw (field_of_mask 0 7 h rfl) (field_of_mask 12 3 h rfl)
  · exact finishStore_storeWord_io (s.readReg rs2) 4#32 hio
  · exact finishStore_storeWord_bound (s.readReg rs2) 4#32 hbound hlow
  · exact finishStore_storeWord_memory (s.readReg rs2) 4#32 hm hbound hin
  · exact finishStore_storeWord_outOfRange (s.readReg rs2) 4#32 hbound hout

end Sys2Proof.Machine

/-! Proofs for the family `42_standard_control.md`: the branch comparisons, the relative targets, and JAL's link. -/

namespace Sys2Proof.Machine

/-! ## Each comparison is the one of its mnemonic (42_standard_control.md R171 to R175) -/

theorem condNe_iff (a b : Word) : condNe a b = true ↔ a ≠ b := bne_iff_ne

theorem condLt_iff (a b : Word) : condLt a b = true ↔ a.toInt < b.toInt := decide_eq_true_iff

theorem condGe_iff (a b : Word) : condGe a b = true ↔ a.toInt ≥ b.toInt := decide_eq_true_iff

theorem condLtu_iff (a b : Word) : condLtu a b = true ↔ a.toNat < b.toNat := decide_eq_true_iff

theorem condGeu_iff (a b : Word) : condGeu a b = true ↔ a.toNat ≥ b.toNat := decide_eq_true_iff

/-! ## Targets relative to the address of the branch, modulo 2^32 (R170) -/

/-- A branch whose Boolean condition stands for `p` goes to `pc + imm`, an exact sum modulo 2^32, when `p` holds. -/
theorem branch_moves_relative {n : Nat} {cond : Bool} {p : Prop} [Decidable p] (hcond : cond = true ↔ p)
    (imm : BitVec n) (len : Word) (s : State) :
    ∃ t, branch cond (sext imm) len s = .next t ∧
      MovesPc s t (if p then BitVec.ofInt 32 (s.pc.toNat + imm.toInt) else s.pc + len) [] := by
  rw [← add_sext_eq_ofInt, ← if_congr hcond rfl rfl]
  exact branch_moves ..

/-! ## The obligations: the row's mask gives the fields, the meaning is one `branch` or one `jumpAndLink` -/

/-- Settles O21. -/
theorem branchesCompareAndMoveOnlyThePc : Obligations.BranchesCompareAndMoveOnlyThePc := by
  refine ⟨fun w => ⟨fun h => ?_, fun h => ?_, fun h => ?_, fun h => ?_, fun h => ?_⟩,
    fun rs1 rs2 imm s => ⟨?_, ?_, ?_, ?_, ?_⟩⟩
  · exact decodeStandard_bne (field_of_mask 0 7 h rfl) (field_of_mask 12 3 h rfl)
  · exact decodeStandard_blt (field_of_mask 0 7 h rfl) (field_of_mask 12 3 h rfl)
  · exact decodeStandard_bge (field_of_mask 0 7 h rfl) (field_of_mask 12 3 h rfl)
  · exact decodeStandard_bltu (field_of_mask 0 7 h rfl) (field_of_mask 12 3 h rfl)
  · exact decodeStandard_bgeu (field_of_mask 0 7 h rfl) (field_of_mask 12 3 h rfl)
  · exact branch_moves_relative (condNe_iff ..) imm 4#32 s
  · exact branch_moves_relative (condLt_iff ..) imm 4#32 s
  · exact branch_moves_relative (condGe_iff ..) imm 4#32 s
  · exact branch_moves_relative (condLtu_iff ..) imm 4#32 s
  · exact branch_moves_relative (condGeu_iff ..) imm 4#32 s

/-- Settles O22. -/
theorem jalLinksAndJumps : Obligations.JalLinksAndJumps := by
  refine ⟨fun w h => ?_, fun rd imm s => ?_⟩
  · exact decodeStandard_jal (field_of_mask 0 7 h rfl)
  · rw [← add_sext_eq_ofInt]
    exact jumpAndLink_writes ..

end Sys2Proof.Machine

/-! Proofs for the family `43_compressed_integer.md`: the values that the compressed integer instructions write, and the
units of their shapes with no row. -/

namespace Sys2Proof.Machine

/-! ## Results as exact sums and products, modulo 2^32 (43_compressed_integer.md R190) -/

theorem add_add_sext_eq_ofInt {n : Nat} (a b : Word) (imm : BitVec n) :
    a + b + sext imm = BitVec.ofInt 32 (a.toNat + b.toNat + imm.toInt) := by
  simp only [sext_eq_ofInt, BitVec.ofInt_add, BitVec.ofInt_natCast, BitVec.ofNat_toNat, BitVec.setWidth_eq]

theorem immClui_eq_ofInt (imm6 : BitVec 6) : immClui imm6 = BitVec.ofInt 32 (imm6.toInt * 4096) := by
  rw [immClui, sext_eq_ofInt, BitVec.toInt_append_zero, Int.mul_comm]
  rfl

/-! ## Units with no row (30_encoding.md R113) -/

section InvalidUnits
variable {u : BitVec 16}

theorem decodeCompressed_cAndi_invalid (hop : cOp u = 0b01#2) (h3 : cFunct3 u = 0b100#3) (h2 : cFunct2 u ≠ 0b10#2) :
    decodeCompressed u = none := by
  rw [decodeCompressed_of_op1 hop, decodeQuadrant1_eq_none_iff]
  exact ⟨h3, h2⟩

theorem decodeCompressed_cMv_invalid (hop : cOp u = 0b10#2) (h4 : cFunct4 u = 0b1000#4) (hr : cReg u = 0)
    (hr2 : cReg2 u ≠ 0) : decodeCompressed u = none := by
  rw [decodeCompressed_of_op2 hop, decodeQuadrant2_eq_none_iff]
  exact .inr (.inl ⟨h4, hr, hr2⟩)

theorem decodeCompressed_cAdd_invalid (hop : cOp u = 0b10#2) (h4 : cFunct4 u = 0b1001#4)
    (hr : cReg u = 0 ∨ cReg2 u = 0) : decodeCompressed u = none := by
  rw [decodeCompressed_of_op2 hop, decodeQuadrant2_eq_none_iff]
  exact .inr (.inr ⟨h4, hr⟩)

end InvalidUnits

/-! ## The obligations: the row's mask gives the fields, the meaning is one `writeBack` -/

/-- Settles O23. -/
theorem cAddi4spnResult : Obligations.CAddi4spnResult := by
  refine ⟨fun u h hu => ?_, ?_, fun f => rfl, fun rd imm s => ?_⟩
  · exact decodeCompressed_cAddi4spn (field_of_mask 0 2 h rfl) (field_of_mask 13 3 h rfl) hu
  · rw [decodeCompressed_of_op0 rfl, decodeQuadrant0_eq_none_iff]
    exact .inr rfl
  · rw [← add_add_sext_eq_ofInt]
    exact writeBack_writes ..

/-- Settles O24. -/
theorem cAddiAndCLiResult : Obligations.CAddiAndCLiResult := by
  refine ⟨fun u h => ?_, fun u h => ?_, fun rd imm s => ?_, fun rd imm s => ?_⟩
  · exact decodeCompressed_cAddi (field_of_mask 0 2 h rfl) (field_of_mask 13 3 h rfl)
  · exact decodeCompressed_cLi (field_of_mask 0 2 h rfl) (field_of_mask 13 3 h rfl)
  · rw [← add_sext_eq_ofInt]
    exact writeBack_writes ..
  · rw [← sext_eq_ofInt]
    exact writeBack_writes ..

/-- Settles O25. -/
theorem cAddi16spAdjustsX2 : Obligations.CAddi16spAdjustsX2 := by
  refine ⟨fun u => ⟨fun h => ?_, fun h => ?_⟩, fun imm s => ?_, fun imm s => ?_⟩
  · have hr : cReg u = 0 := (cReg_eq_iff u 0#5).2 (field_of_mask 7 5 h rfl)
    exact decodeCompressed_cAddi16spField0 (field_of_mask 0 2 h rfl) (field_of_mask 13 3 h rfl) hr
  · have hr : cReg u = 2 := (cReg_eq_iff u 2#5).2 (field_of_mask 7 5 h rfl)
    exact decodeCompressed_cAddi16spField2 (field_of_mask 0 2 h rfl) (field_of_mask 13 3 h rfl) hr
  all_goals
    rw [← add_sext_eq_ofInt]
    exact writeBack_writes ..

/-- Settles O26. -/
theorem cLuiWritesTheUpperImmediate : Obligations.CLuiWritesTheUpperImmediate := by
  refine ⟨fun u h hr0 hr2 => ?_, fun rd imm6 s => ?_⟩
  · exact decodeCompressed_cLui (field_of_mask 0 2 h rfl) (field_of_mask 13 3 h rfl) (cReg_ne hr0) (cReg_ne hr2)
  · rw [← immClui_eq_ofInt]
    exact writeBack_writes ..

/-- Settles O27. -/
theorem cAndiResult : Obligations.CAndiResult := by
  refine ⟨fun u h => ?_, fun u h h2 => ?_, fun f => rfl, fun rd imm s => ?_⟩
  · exact decodeCompressed_cAndi (field_of_mask 0 2 h rfl) (field_of_mask 13 3 h rfl) (field_of_mask 10 2 h rfl)
  · exact decodeCompressed_cAndi_invalid (field_of_mask 0 2 h rfl) (field_of_mask 13 3 h rfl) h2
  · exact writeBack_writes ..

/-- Settles O28. -/
theorem cMvAndCAddResult : Obligations.CMvAndCAddResult := by
  refine ⟨fun u => ⟨fun h hr hr2 => ?_, fun h hr hr2 => ?_, fun h hr hr2 => ?_, fun h hr => ?_⟩,
    fun rd rs2 s => ?_, fun rd rs2 s => ?_⟩
  · exact decodeCompressed_cMv (field_of_mask 0 2 h rfl) (field_of_mask 12 4 h rfl) hr hr2
  · exact decodeCompressed_cMv_invalid (field_of_mask 0 2 h rfl) (field_of_mask 12 4 h rfl) hr hr2
  · exact decodeCompressed_cAdd (field_of_mask 0 2 h rfl) (field_of_mask 12 4 h rfl) hr hr2
  · exact decodeCompressed_cAdd_invalid (field_of_mask 0 2 h rfl) (field_of_mask 12 4 h rfl) hr
  · exact writeBack_writes ..
  · rw [← BitVec.add_def]
    exact writeBack_writes ..

end Sys2Proof.Machine

/-! Proofs for the family `44_compressed_loadstore.md`: what C.LW and C.SW do in each region, and the direct store of
C.SWSP. -/

namespace Sys2Proof.Machine

/-! ## How a store that wrote a word ends (44_compressed_loadstore.md R210) -/

theorem finishStore_of_memWrite32 {r : Except HaltReason State} {a : Nat} {v : Word} (len : Word) {s : State}
    (hm : s.mem.wf = true) (h : r = .ok (s.memWrite32 a v)) :
    ∃ t, finishStore len r s = .next t ∧ StoresWord s t a v (s.pc + len) := by
  rw [h]
  exact ⟨_, rfl, memWrite32_stores s a v len hm⟩

/-! ## The obligations: the row's mask gives the fields, the meaning is one load or store at `eaCompressed` -/

/-- Settles O29. -/
theorem cLwByRegion : Obligations.CLwByRegion := by
  refine ⟨fun u h => ?_, fun f => rfl, fun rd rs1 uimm s => ⟨fun hio => ?_, fun hlow hin => ?_, fun hlow hout => ?_⟩⟩
  · exact decodeCompressed_cLw (field_of_mask 0 2 h rfl) (field_of_mask 13 3 h rfl)
  · exact loadWordInto_io (popular rd) 2#32 hio
  · exact loadWordInto_memory (popular rd) 2#32 hlow hin
  · exact loadWordInto_outOfRange (popular rd) 2#32 hlow hout

/-- Settles O30. -/
theorem cSwByRegion : Obligations.CSwByRegion := by
  refine ⟨fun u h => ?_, fun f => rfl, fun rs2 rs1 uimm s hm => ⟨fun hio => ?_, fun hbound hlow => ?_,
    fun hbound hin => ?_, fun hbound hout => ?_⟩⟩
  · exact decodeCompressed_cSw (field_of_mask 0 2 h rfl) (field_of_mask 13 3 h rfl)
  · exact finishStore_storeWord_io (s.readReg (popular rs2)) 2#32 hio
  · exact finishStore_storeWord_bound (s.readReg (popular rs2)) 2#32 hbound hlow
  · exact finishStore_storeWord_memory (s.readReg (popular rs2)) 2#32 hm hbound hin
  · exact finishStore_storeWord_outOfRange (s.readReg (popular rs2)) 2#32 hbound hout

/-- Settles O31: each clause is the ending of the same clause of the direct store (20_memory.md R59). -/
theorem cSwspStoresDirectly : Obligations.CSwspStoresDirectly := by
  refine ⟨fun u h => ?_, fun rs2 uimm s hm => ?_⟩
  · exact decodeCompressed_cSwsp (field_of_mask 0 2 h rfl) (field_of_mask 13 3 h rfl)
  · obtain ⟨stored, outOfRange, misaligned, maskStored, maskOutOfRange⟩ :=
      storeDirectByMode s (eaCompressed 2 uimm s) (s.readReg rs2)
    refine ⟨fun hexact hin => ?_, fun hexact hout => ?_, fun hmis hfault => ?_, fun hmis hmask hin => ?_,
      fun hmis hmask hout => ?_⟩
    · exact finishStore_of_memWrite32 2#32 hm (stored hexact hin)
    · exact finishStore_of_error 2#32 s (outOfRange hexact hout)
    · exact finishStore_of_error 2#32 s (misaligned hmis hfault)
    · exact finishStore_of_memWrite32 2#32 hm (maskStored hmis hmask hin)
    · exact finishStore_of_error 2#32 s (maskOutOfRange hmis hmask hout)

end Sys2Proof.Machine

/-! Proofs for the family `45_compressed_control.md`: the tests for zero, the compressed jumps and branches, and the step
after a C.JR to an odd target. -/

namespace Sys2Proof.Machine

/-! ## The tests for zero (45_compressed_control.md R223, R224) -/

theorem condZero_iff (a : Word) : condZero a = true ↔ a = 0#32 := beq_iff_eq

theorem condNonzero_iff (a : Word) : condNonzero a = true ↔ a ≠ 0#32 := bne_iff_ne

/-! ## An odd pc (46_dispatch_loop.md R242) -/

/-- The parity of pc is checked before anything is fetched. -/
theorem State.fetchDecode_of_odd_pc {s : State} (hodd : s.pc.getLsbD 0 = true) : s.fetchDecode = .error (.oddPc s.pc) :=
  if_pos hodd

/-- A running core that has no instruction to execute halts with the reason. -/
theorem step_of_fetchDecode_error {s : State} {f : HaltReason} (hrun : s.run = .running)
    (hf : s.fetchDecode = .error f) : HaltsWith f s (step s) := by
  simp only [step, hrun, hf]
  exact raise_halts f s

/-- A running core with an odd pc halts. -/
theorem step_of_odd_pc {s : State} (hrun : s.run = .running) (hodd : s.pc.getLsbD 0 = true) :
    HaltsWith (.oddPc s.pc) s (step s) :=
  step_of_fetchDecode_error hrun (State.fetchDecode_of_odd_pc hodd)

/-! ## The obligations: the row's mask gives the fields, the meaning is one jump or one `branch` -/

/-- Settles O32. -/
theorem cJalAndCJJump : Obligations.CJalAndCJJump := by
  refine ⟨fun u => ⟨fun h => ?_, fun h => ?_⟩, fun imm s => ?_, fun imm s => ?_⟩
  · exact decodeCompressed_cJal (field_of_mask 0 2 h rfl) (field_of_mask 13 3 h rfl)
  · exact decodeCompressed_cJ (field_of_mask 0 2 h rfl) (field_of_mask 13 3 h rfl)
  · rw [← add_sext_eq_ofInt]
    exact jumpAndLink_writes ..
  · rw [← add_sext_eq_ofInt]
    exact ⟨_, rfl, setPc_moves _ s⟩

/-- Settles O33. -/
theorem cBeqzAndCBnezTestARegister : Obligations.CBeqzAndCBnezTestARegister := by
  refine ⟨fun u => ⟨fun h => ?_, fun h => ?_⟩, fun f => rfl, fun rs1 imm s => ⟨?_, ?_⟩⟩
  · exact decodeCompressed_cBeqz (field_of_mask 0 2 h rfl) (field_of_mask 13 3 h rfl)
  · exact decodeCompressed_cBnez (field_of_mask 0 2 h rfl) (field_of_mask 13 3 h rfl)
  · exact branch_moves_relative (condZero_iff ..) imm 2#32 s
  · exact branch_moves_relative (condNonzero_iff ..) imm 2#32 s

/-- Settles O34: the next step sees the register's value as its pc, and the run state C.JR left alone. -/
theorem cJrCopiesTheRegisterToPc : Obligations.CJrCopiesTheRegisterToPc := by
  refine ⟨fun u h => ?_, fun u h => ?_, fun rs1 s => ?_⟩
  · have hr2 : cReg2 u = 0 := (cReg2_eq_iff u 0#5).2 (field_of_mask 2 5 h rfl)
    exact decodeCompressed_cJr (field_of_mask 0 2 h rfl) (field_of_mask 12 4 h rfl) hr2
  · have hr2 : cReg2 u = 0 := (cReg2_eq_iff u 0#5).2 (field_of_mask 2 5 h rfl)
    exact decodeCompressed_cAdd_invalid (field_of_mask 0 2 h rfl) (field_of_mask 12 4 h rfl) (.inr hr2)
  · exact ⟨s.setPc (s.readReg rs1), rfl, setPc_moves _ s, step_of_odd_pc (s := s.setPc (s.readReg rs1))⟩

end Sys2Proof.Machine

/-! Proofs for the family `46_dispatch_loop.md`: every state has a next state, a halted core stays as it is, an odd pc halts,
and a step executes the instruction decoded from the bytes at pc, also when the host placed them there. -/

namespace Sys2Proof.Machine

/-! ## Every state has a next state (46_dispatch_loop.md R249; 10_state.md R20, R31) -/

/-- Keeping an instruction's effect, or only its reason to halt, leaves a next state. -/
theorem commit_next (s t : State) : ∃ u, commit s (.next t) = .next u := by
  cases h : t.run with
  | running => exact ⟨t, commit_running h⟩
  | halted f => exact ⟨_, commit_halted h⟩

theorem step_next (s : State) : ∃ t, step s = .next t := by
  obtain ⟨f, -, hs⟩ | ⟨f, -, -, hs⟩ | ⟨raw, i, -, -, hs⟩ := step_cases (s := s) rfl
  · exact ⟨s, hs⟩
  · exact ⟨_, hs⟩
  · obtain ⟨t, ht⟩ := exec_next i (s.traced raw i)
    rw [hs, ht]
    exact commit_next s t

/-- No instruction changes the parameters. -/
theorem exec_cfg {i : Instr} {s t : State} (he : exec i s = .next t) : t.cfg = s.cfg := by
  have hshape := exec_shape i s
  rw [he] at hshape
  cases hshape with
  | register => simp
  | ioLoad => simp
  | pc => rfl
  | ioStore => rfl
  | store => simp
  | halt => rfl

/-- Settles O49: a halting step changes only the run state, a completed one is `exec` on the traced state. -/
theorem stepIsTotalAndKeepsTheParameters : Obligations.StepIsTotalAndKeepsTheParameters := by
  intro s
  obtain ⟨t, ht⟩ := step_next s
  refine ⟨t, ht, ?_⟩
  obtain ⟨f, rfl⟩ | ⟨raw, i, -, he, -⟩ := step_halts_or_completes ht
  · rfl
  · exact (exec_cfg he).trans (s.traced_cfg raw i)

/-! ## The steps without an instruction (46_dispatch_loop.md R242, R247) -/

theorem step_of_halted {s : State} {f : HaltReason} (h : s.run = .halted f) : step s = .next s := by
  simp only [step, h]

theorem run_of_halted {s : State} {f : HaltReason} (h : s.run = .halted f) (n : Nat) :
    Sys2Proof.core.run n s = .next s := by
  induction n with
  | zero => rfl
  | succ n ih =>
    have hstep : Sys2Proof.core.step s = .next s := step_of_halted h
    simp only [Host.Core.run, hstep]
    exact ih

/-- Settles O48. -/
theorem haltedIsTerminal : Obligations.HaltedIsTerminal := fun _ _ n h => ⟨step_of_halted h, run_of_halted h n⟩

/-- Settles O45. -/
theorem oddPcHaltsBeforeTheFetch : Obligations.OddPcHaltsBeforeTheFetch := fun _ => step_of_odd_pc

/-! ## Fetching and decoding at an even pc (46_dispatch_loop.md R243 to R246) -/

section Fetch
variable {s : State}

theorem State.fetchRaw_unit {lo : Parcel} (hlo : s.fetch16 s.pc = .ok lo) (hunit : ¬isStandardParcel lo = true) :
    s.fetchRaw = .ok (.unit lo) := by
  simp only [State.fetchRaw, hlo, if_neg hunit]

theorem State.fetchRaw_word {lo hi : Parcel} (hlo : s.fetch16 s.pc = .ok lo) (hword : isStandardParcel lo = true)
    (hhi : s.fetch16 (s.pc + 2#32) = .ok hi) : s.fetchRaw = .ok (.word (wordOfParcels lo hi)) := by
  simp only [State.fetchRaw, hlo, if_pos hword, hhi]

theorem State.fetchDecode_of_fetchRaw {raw : Raw} {i : Instr} (heven : s.pc.getLsbD 0 = false)
    (hraw : s.fetchRaw = .ok raw) (hdec : decodeRaw raw = some i) : s.fetchDecode = .ok (raw, i) := by
  simp only [State.fetchDecode, heven, hraw, hdec, Bool.false_eq_true, if_false]

/-- A step fetches what the byte decoder reads from the bytes of the two parcels; the second parcel matters only when the
instruction has four bytes. -/
theorem State.fetchDecode_of_decode {b0 b1 b2 b3 : Byte} {raw : Raw} {i : Instr} {rest : List Byte}
    (heven : s.pc.getLsbD 0 = false) (hdec : decode [b0, b1, b2, b3] = .instr raw i rest)
    (hlo : s.fetch16 s.pc = .ok (parcelOfBytes b0 b1))
    (hhi : raw.length = 4 → s.fetch16 (s.pc + 2#32) = .ok (parcelOfBytes b2 b3)) : s.fetchDecode = .ok (raw, i) := by
  have hstd := isStandardParcel_parcelOfBytes b0 b1
  by_cases hlow : b0.extractLsb' 0 2 = 3#2
  · rw [decode_standard b1 hlow, decodeWord_eq_instr_iff] at hdec
    obtain ⟨hdec, rfl, -⟩ := hdec
    exact fetchDecode_of_fetchRaw heven (fetchRaw_word hlo (hstd.2 hlow) (hhi rfl)) hdec
  · rw [decode_compressed b1 hlow, decodeUnit_eq_instr_iff] at hdec
    obtain ⟨hdec, rfl, -⟩ := hdec
    exact fetchDecode_of_fetchRaw heven (fetchRaw_unit hlo (mt hstd.1 hlow)) hdec

theorem step_of_fetchDecode_ok {raw : Raw} {i : Instr} (hrun : s.run = .running) (h : s.fetchDecode = .ok (raw, i)) :
    step s = commit s (exec i (s.traced raw i)) := by
  simp only [step, hrun, h]

end Fetch

/-- The second byte of a parcel at an even address does not wrap around 2^32. -/
theorem toNat_add_one_of_even {a : Word} (h : a.getLsbD 0 = false) : (a + 1#32).toNat = a.toNat + 1 := by
  have hodd := mt (odd_iff a).2 (ne_true_of_eq_false h)
  have := a.isLt
  rw [BitVec.toNat_add, BitVec.toNat_ofNat]
  omega

/-- A parcel fetched at an even address is made of the bytes at that address and the next one, modulo 2^32. -/
theorem State.fetch16_of_even (s : State) {a : Word} (h : a.getLsbD 0 = false) (hin : a.toNat + 2 ≤ s.cfg.memSize) :
    s.fetch16 a = .ok (parcelOfBytes (s.readByte a.toNat) (s.readByte (a + 1#32).toNat)) := by
  rw [s.fetch16_ok a hin, toNat_add_one_of_even h, State.memRead16]

/-- Settles O43: `commit` keeps a running answer, and of a halted one the reason. -/
theorem stepRunsTheDecodedInstruction : Obligations.StepRunsTheDecodedInstruction := by
  intro s raw i rest hrun heven hdec hlo hhi
  have heven2 : (s.pc + 2#32).getLsbD 0 = false := even_add heven rfl
  have haddr : s.pc + 3#32 = s.pc + 2#32 + 1#32 := by rw [BitVec.add_assoc]; rfl
  rw [haddr] at hdec
  have hfetch := State.fetchDecode_of_decode heven hdec (s.fetch16_of_even heven hlo)
    fun hlen => s.fetch16_of_even heven2 (hhi hlen)
  have hstep : step s = commit s (exec i (s.emit (.trace s.pc raw i))) := step_of_fetchDecode_ok hrun hfetch
  refine ⟨fun t he hrun' => ?_, fun t f he hhalt => ?_⟩
  · rw [hstep, he, commit_running hrun']
  · rw [hstep, he, commit_halted hhalt]
    exact raise_halts f s

/-! ## Placing one instruction (log 14) -/

section Place
variable {s : State} {a b : Word} (p : Parcel)

theorem State.placeParcel_wf (hm : s.mem.wf = true) : (s.placeParcel a p).mem.wf = true :=
  Memory.wf_write _ _ (Memory.wf_write _ _ hm)

theorem State.readByte_placeParcel_first (hm : s.mem.wf = true) :
    (s.placeParcel a p).readByte a.toNat = p.extractLsb' 0 8 :=
  (State.readByte_writeByte_other _ _ (by omega)).trans (s.readByte_writeByte_same _ _ hm)

theorem State.readByte_placeParcel_second (hm : s.mem.wf = true) :
    (s.placeParcel a p).readByte (a.toNat + 1) = p.extractLsb' 8 8 :=
  State.readByte_writeByte_same _ _ _ (Memory.wf_write _ _ hm)

theorem State.readByte_placeParcel_other {n : Nat} (h : n < a.toNat ∨ a.toNat + 2 ≤ n) :
    (s.placeParcel a p).readByte n = s.readByte n :=
  (State.readByte_writeByte_other _ _ (by omega)).trans (s.readByte_writeByte_other _ (by omega))

/-- A placed parcel is fetched. -/
theorem State.fetch16_placeParcel_same (hm : s.mem.wf = true) : (s.placeParcel a p).fetch16 a = .ok p := by
  rw [State.fetch16_ok _ a (le_max_right ..), State.memRead16, readByte_placeParcel_first p hm,
    readByte_placeParcel_second p hm, parcelOfBytes_bytes]

/-- Placing a parcel at an even address leaves the parcel at another even address: the two do not overlap. -/
theorem State.memRead16_placeParcel_other (ha : a.getLsbD 0 = false) (hb : b.getLsbD 0 = false) (hne : b ≠ a) :
    (s.placeParcel a p).memRead16 b.toNat = s.memRead16 b.toNat := by
  have hamod := mt (odd_iff a).2 (ne_true_of_eq_false ha)
  have hbmod := mt (odd_iff b).2 (ne_true_of_eq_false hb)
  have hapart : b.toNat ≠ a.toNat := mt BitVec.toNat_inj.1 hne
  rw [State.memRead16, readByte_placeParcel_other p (by omega), readByte_placeParcel_other p (by omega), State.memRead16]

/-- A parcel placed at an even address is still fetched after another one is placed at another even address. -/
theorem State.fetch16_placeParcel_other {q : Parcel} (ha : a.getLsbD 0 = false) (hb : b.getLsbD 0 = false) (hne : b ≠ a)
    (hm : s.mem.wf = true) : ((s.placeParcel b q).placeParcel a p).fetch16 b = .ok q := by
  have hin : b.toNat + 2 ≤ (s.placeParcel b q).cfg.memSize := le_max_right ..
  have hfetch := fetch16_placeParcel_same (a := b) q hm
  rw [State.fetch16_ok _ b hin] at hfetch
  rw [State.fetch16_ok _ b (hin.trans (le_max_left ..)), memRead16_placeParcel_other p ha hb hne, hfetch]

end Place

/-! The two parcels of a word are made of its bytes. -/

theorem parcelOfBytes_low (w : Word) : parcelOfBytes (byteOfWord w 0) (byteOfWord w 1) = w.extractLsb' 0 16 :=
  BitVec.extractLsb'_append_extractLsb'_eq_extractLsb' (by decide)

theorem parcelOfBytes_high (w : Word) : parcelOfBytes (byteOfWord w 2) (byteOfWord w 3) = w.extractLsb' 16 16 :=
  BitVec.extractLsb'_append_extractLsb'_eq_extractLsb' (by decide)

theorem State.placeAtPc_pc (w : Word) (s : State) : (s.placeAtPc w).pc = s.pc &&& 0xFFFFFFFE#32 := rfl

theorem State.placeAtPc_run (w : Word) (s : State) : (s.placeAtPc w).run = .running := rfl

theorem State.placeAtPc_pc_even (w : Word) (s : State) : (s.placeAtPc w).pc.getLsbD 0 = false := by
  simp [placeAtPc_pc]

/-- Both parcels of a word placed at pc are fetched there. -/
theorem State.fetch16_placeAtPc (w : Word) {s : State} (hm : s.mem.wf = true) :
    (s.placeAtPc w).fetch16 (s.placeAtPc w).pc = .ok (w.extractLsb' 0 16) ∧
      (s.placeAtPc w).fetch16 ((s.placeAtPc w).pc + 2#32) = .ok (w.extractLsb' 16 16) := by
  have heven := s.placeAtPc_pc_even w
  have hne : (s.placeAtPc w).pc ≠ (s.placeAtPc w).pc + 2#32 := by simp
  exact ⟨fetch16_placeParcel_other _ (even_add heven rfl) heven hne hm,
    fetch16_placeParcel_same _ (placeParcel_wf _ hm)⟩

/-- Settles O44: `withFetchWord` places the word whose bytes the decoder reads. -/
theorem withFetchWordIsRunNext : Obligations.WithFetchWordIsRunNext := by
  intro s nbits w raw i rest hm hdec
  obtain ⟨hlo, hhi⟩ := State.fetch16_placeAtPc (BitVec.ofNat 32 (w % 2 ^ nbits)) hm
  rw [← parcelOfBytes_low] at hlo
  rw [← parcelOfBytes_high] at hhi
  have hfetch := State.fetchDecode_of_decode (s.placeAtPc_pc_even _) hdec hlo fun _ => hhi
  have hrun := s.placeAtPc_run (BitVec.ofNat 32 (w % 2 ^ nbits))
  exact ⟨hrun, step_of_fetchDecode_ok hrun hfetch⟩

end Sys2Proof.Machine

/-! Proofs for the family `60_exceptions.md`: what halts a step before execution, which instructions halt and why, and what an
instruction reports. -/

namespace Sys2Proof.Machine

/-! ## A fetch outside backing memory (60_exceptions.md R266) -/

section FetchFaults
variable {s : State} {f : HaltReason}

theorem State.fetchRaw_of_first_error (hlo : s.fetch16 s.pc = .error f) : s.fetchRaw = .error f := by
  simp only [State.fetchRaw, hlo]

theorem State.fetchRaw_of_second_error {lo : Parcel} (hlo : s.fetch16 s.pc = .ok lo) (hword : isStandardParcel lo = true)
    (hhi : s.fetch16 (s.pc + 2#32) = .error f) : s.fetchRaw = .error f := by
  simp only [State.fetchRaw, hlo, if_pos hword, hhi]

/-- A fault of the fetch is the fault of the step. -/
theorem step_of_fetchRaw_error (hrun : s.run = .running) (heven : s.pc.getLsbD 0 = false)
    (hraw : s.fetchRaw = .error f) : HaltsWith f s (step s) := by
  refine step_of_fetchDecode_error hrun ?_
  simp only [State.fetchDecode, heven, hraw, Bool.false_eq_true, if_false]

end FetchFaults

/-- Settles O46: the first byte of the first parcel holds the bits that ask for the second. -/
theorem fetchOutsideMemoryHalts : Obligations.FetchOutsideMemoryHalts := by
  intro s hrun heven
  refine ⟨fun hout => ?_, fun hin hlow hout => ?_⟩
  · exact step_of_fetchRaw_error hrun heven (State.fetchRaw_of_first_error (s.fetch16_error _ hout))
  · have hword := (isStandardParcel_parcelOfBytes _ (s.readByte (s.pc.toNat + 1))).2 hlow
    exact step_of_fetchRaw_error hrun heven
      (State.fetchRaw_of_second_error (s.fetch16_ok _ hin) hword (s.fetch16_error _ hout))

/-! ## Encodings that match no row (R262, R263) -/

theorem isStandardParcel_iff (lo : Parcel) : isStandardParcel lo = true ↔ lo.extractLsb' 0 2 = 3#2 := beq_iff_eq

/-- The low two bits of a word are those of its first parcel. -/
theorem wordOfParcels_lowBits (lo hi : Parcel) : (wordOfParcels lo hi).extractLsb' 0 2 = lo.extractLsb' 0 2 :=
  BitVec.extractLsb'_append_eq_of_add_le (by decide)

theorem decodeStandard_eq_none {w : BitVec 32} (h : ∀ name m k, (name, m, k) ∈ standardRows → w &&& k ≠ m) :
    decodeStandard w = none := by
  refine Option.eq_none_iff_forall_ne_some.2 fun i hdec => ?_
  obtain ⟨m, k, hrow, hmask⟩ := standardRow_of_decode hdec
  exact h _ m k hrow hmask

theorem decodeCompressed_eq_none {u : BitVec 16}
    (h : ∀ name m k, (name, m, k) ∈ compressedRows → u &&& k = m → ¬compressedGuard name u) :
    decodeCompressed u = none := by
  refine Option.eq_none_iff_forall_ne_some.2 fun i hdec => ?_
  obtain ⟨m, k, hrow, hmask, hguard⟩ := (compressedDecoderIsTheOpcodeMap u _).1 ⟨i, hdec, rfl⟩
  exact h _ m k hrow hmask hguard

/-- An encoding that matches no row halts with its report. -/
theorem step_of_decodeRaw_none {s : State} {raw : Raw} (hrun : s.run = .running) (heven : s.pc.getLsbD 0 = false)
    (hraw : s.fetchRaw = .ok raw) (hdec : decodeRaw raw = none) : HaltsWith (invalidReason s.pc raw) s (step s) := by
  refine step_of_fetchDecode_error hrun ?_
  simp only [State.fetchDecode, heven, hraw, hdec, Bool.false_eq_true, if_false]

/-- Settles O47. -/
theorem invalidEncodingsHalt : Obligations.InvalidEncodingsHalt := by
  intro s hrun heven
  constructor
  · intro hlo hhi w hlow hrows
    have hword : isStandardParcel (s.memRead16 s.pc.toNat) = true :=
      (isStandardParcel_iff _).2 ((wordOfParcels_lowBits _ _).symm.trans hlow)
    exact step_of_decodeRaw_none (raw := .word w) hrun heven
      (State.fetchRaw_word (s.fetch16_ok _ hlo) hword (s.fetch16_ok _ hhi)) (decodeStandard_eq_none hrows)
  · intro hlo u hlow hrows
    have hunit : ¬isStandardParcel u = true := mt (isStandardParcel_iff u).1 hlow
    exact step_of_decodeRaw_none (raw := .unit u) hrun heven
      (State.fetchRaw_unit (s.fetch16_ok _ hlo) hunit) (decodeCompressed_eq_none hrows)

/-! ## What a fatal fault changes (R270) -/

/-- An instruction either halts the state as it is, or leaves the run state alone. -/
theorem exec_halts_or_keeps_run {i : Instr} {s t : State} (he : exec i s = .next t) :
    (∃ f, t = { s with run := .halted f }) ∨ t.run = s.run := by
  have hshape := exec_shape i s
  rw [he] at hshape
  cases hshape with
  | register => exact .inr (by simp)
  | ioLoad => exact .inr (by simp)
  | pc => exact .inr rfl
  | ioStore => exact .inr rfl
  | store => exact .inr (by simp [State.memWrite32])
  | halt f => exact .inl ⟨f, rfl⟩

/-- Settles O50: the reason recorded is the one the run state shows. -/
theorem haltingChangesOnlyTheRunState : Obligations.HaltingChangesOnlyTheRunState := by
  refine ⟨fun i s t f hrun he hhalt => ?_, fun s t f hstep hhalt => ?_⟩
  · obtain ⟨g, rfl⟩ | hkeep := exec_halts_or_keeps_run he
    · cases hhalt
      rfl
    · rw [hkeep, hrun] at hhalt
      cases hhalt
  · obtain ⟨g, rfl⟩ | ⟨-, -, -, -, hrun⟩ := step_halts_or_completes hstep
    · cases hhalt
      rfl
    · rw [hrun] at hhalt
      cases hhalt

/-! ## Which instructions halt, and why (R261, R265, R267 to R269) -/

section RunState
variable {rd : RegIdx} {v ea imm len : Word} {c : Bool} {f : HaltReason} {s t : State}

theorem writeBack_run (h : writeBack rd v len s = .next t) : t.run = s.run := by
  cases h
  simp

theorem jumpAndLink_run (h : jumpAndLink rd imm len s = .next t) : t.run = s.run := by
  cases h
  simp

theorem branch_run (h : branch c imm len s = .next t) : t.run = s.run := by
  cases h
  rfl

theorem raise_run (h : raise f s = .next t) : t.run = .halted f := by
  cases h
  rfl

theorem loadWordInto_run (h : loadWordInto rd ea len s = .next t) :
    t.run = s.run ∨ t.run = .halted (.loadOutOfRange ea) := by
  unfold loadWordInto at h
  obtain hl | hl | hl := s.loadWord_cases ea <;> rw [hl] at h
  · exact .inl ((writeBack_run h).trans (s.emit_run _))
  · exact .inl (writeBack_run h)
  · exact .inr (raise_run h)

theorem loadByteInto_run (h : loadByteInto rd ea len s = .next t) :
    t.run = s.run ∨ t.run = .halted (.loadOutOfRange ea) := by
  unfold loadByteInto at h
  obtain hl | hl | hl := s.loadByte_cases ea <;> rw [hl] at h
  · exact .inl ((writeBack_run h).trans (s.emit_run _))
  · exact .inl (writeBack_run h)
  · exact .inr (raise_run h)

theorem finishStore_storeWord_run (h : finishStore len (s.storeWord ea v) s = .next t) :
    t.run = s.run ∨ t.run = .halted (.storeBound ea) ∨ t.run = .halted (.storeOutOfRange ea) := by
  obtain hst | hst | ⟨hst, -⟩ | hst := s.storeWord_cases ea v <;> rw [hst] at h
  · cases h
    exact .inl rfl
  · exact .inr (.inl (raise_run h))
  · cases h
    exact .inl (s.memWrite_run ..)
  · exact .inr (.inr (raise_run h))

theorem finishStore_storeDirect_run (h : finishStore len (s.storeDirect ea v) s = .next t) :
    t.run = s.run ∨ t.run = .halted (.swspMisaligned ea) ∨ t.run = .halted (.storeOutOfRange ea) := by
  obtain ⟨n, hst, -⟩ | hst | hst := s.storeDirect_cases ea v <;> rw [hst] at h
  · cases h
    exact .inl (s.memWrite_run ..)
  · exact .inr (.inl (raise_run h))
  · exact .inr (.inr (raise_run h))

end RunState

/-- Settles O51: a halted answer to a running state has another run state, so only what can change it is left. -/
theorem onlyLoadsAndStoresHaltInExecution : Obligations.OnlyLoadsAndStoresHaltInExecution := by
  intro i s t f hrun he hhalt
  have hchanged : t.run ≠ s.run := by simp [hrun, hhalt]
  have hreason : ∀ {g}, t.run = .halted g → f = g := fun h => RunState.halted.inj (hhalt.symm.trans h)
  cases i
  case lbu rd rs1 imm =>
    exact .inl ⟨rd, rs1, imm, rfl, hreason ((loadByteInto_run he).resolve_left hchanged)⟩
  case lw rd rs1 imm =>
    exact .inr (.inl ⟨rd, rs1, imm, rfl, hreason ((loadWordInto_run he).resolve_left hchanged)⟩)
  case cLw rd rs1 uimm =>
    exact .inr (.inr (.inl ⟨rd, rs1, uimm, rfl, hreason ((loadWordInto_run he).resolve_left hchanged)⟩))
  case sw rs2 rs1 imm =>
    have hwhy := (finishStore_storeWord_run he).resolve_left hchanged
    exact .inr (.inr (.inr (.inl ⟨rs2, rs1, imm, rfl, hwhy.imp hreason hreason⟩)))
  case cSw rs2 rs1 uimm =>
    have hwhy := (finishStore_storeWord_run he).resolve_left hchanged
    exact .inr (.inr (.inr (.inr (.inl ⟨rs2, rs1, uimm, rfl, hwhy.imp hreason hreason⟩))))
  case cSwsp rs2 uimm =>
    have hwhy := (finishStore_storeDirect_run he).resolve_left hchanged
    exact .inr (.inr (.inr (.inr (.inr ⟨rs2, uimm, rfl, hwhy.imp hreason hreason⟩))))
  case jal | cJal => exact absurd (jumpAndLink_run he) hchanged
  case bne | blt | bge | bltu | bgeu | cBeqz | cBnez => exact absurd (branch_run he) hchanged
  case cJ | cJr =>
    cases he
    exact absurd rfl hchanged
  all_goals exact absurd (writeBack_run he) hchanged

/-! ## What an instruction reports (R275, R276, R278) -/

/-- The register an instruction writes, if it writes one. -/
def destination : Instr → Option RegIdx
  | .lui rd _ | .auipc rd _ | .jal rd _ | .lw rd _ _ | .lbu rd _ _ | .addi rd _ _ | .andi rd _ _ => some rd
  | .add rd _ _ | .sub rd _ _ | .xor rd _ _ => some rd
  | .cAddi rd _ | .cLi rd _ | .cLui rd _ | .cMv rd _ | .cAdd rd _ => some rd
  | .cAddi4spn rd _ | .cLw rd _ _ | .cAndi rd _ => some (popular rd)
  | .cAddi16spField0 _ | .cAddi16spField2 _ => some sp
  | .cJal _ => some ra
  | .bne _ _ _ | .blt _ _ _ | .bge _ _ _ | .bltu _ _ _ | .bgeu _ _ _ | .cBeqz _ _ | .cBnez _ _ => none
  | .cJ _ | .cJr _ | .sw _ _ _ | .cSw _ _ _ | .cSwsp _ _ => none

/-- The diagnostics of one instruction whose destination is `dest`: at most one, and a write is reported only when it is of a
nonzero value to register 0. -/
inductive Report (dest : Option RegIdx) : List Event → Prop where
  | nothing : Report dest []
  | x0Write (v : Word) (hv : v ≠ 0#32) (hdest : dest = some 0) : Report dest [.x0Write v]
  | ioLoad (a : Word) : Report dest [.ioLoad a]
  | ioStore (a v : Word) : Report dest [.ioStore a v]

theorem Report.length_le_one {dest : Option RegIdx} {d : List Event} (h : Report dest d) : d.length ≤ 1 := by
  cases h <;> simp

theorem Report.diagnostic {dest : Option RegIdx} {d : List Event} (h : Report dest d) {e : Event} (he : e ∈ d) :
    (∃ v, e = .x0Write v) ∨ (∃ a, e = .ioLoad a) ∨ (∃ a v, e = .ioStore a v) := by
  cases h with
  | nothing => cases he
  | x0Write v => exact .inl ⟨v, List.mem_singleton.1 he⟩
  | ioLoad a => exact .inr (.inl ⟨a, List.mem_singleton.1 he⟩)
  | ioStore a v => exact .inr (.inr ⟨a, v, List.mem_singleton.1 he⟩)

theorem Report.of_x0Write_mem {dest : Option RegIdx} {d : List Event} {v : Word} (h : Report dest d)
    (hv : .x0Write v ∈ d) : v ≠ 0#32 ∧ dest = some 0 := by
  cases h with
  | x0Write u hu hdest =>
    cases List.mem_singleton.1 hv
    exact ⟨hu, hdest⟩
  | nothing | ioLoad | ioStore => simp at hv

theorem report_x0Diag (rd : RegIdx) (v : Word) : Report (some rd) (x0Diag rd v) := by
  unfold x0Diag
  split
  case isTrue h => exact .x0Write v h.2 (congrArg some h.1)
  case isFalse => exact .nothing

/-- The answer to `s` appends the diagnostics of an instruction whose destination is `dest`, and no other event. -/
def Reports (dest : Option RegIdx) (s : State) (r : Result) : Prop :=
  ∃ t d, r = .next t ∧ t.events = s.events ++ d ∧ Report dest d

section Reports
variable (dest : Option RegIdx) (rd : RegIdx) (v ea imm len : Word) (s : State)

theorem reports_nothing {t : State} (h : t.events = s.events) : Reports dest s (.next t) :=
  ⟨t, [], rfl, by rw [h, List.append_nil], .nothing⟩

theorem reports_writeBack : Reports (some rd) s (writeBack rd v len s) :=
  ⟨_, _, rfl, s.writeReg_events rd v, report_x0Diag rd v⟩

theorem reports_jumpAndLink : Reports (some rd) s (jumpAndLink rd imm len s) :=
  ⟨_, _, rfl, s.writeReg_events rd _, report_x0Diag rd _⟩

theorem reports_branch (c : Bool) : Reports none s (branch c imm len s) := reports_nothing none s rfl

theorem reports_raise (f : HaltReason) : Reports dest s (raise f s) := reports_nothing dest s rfl

/-- A load from the I/O region writes 0, so the load is all it reports (R276). -/
theorem reports_ioLoad : Reports (some rd) s (writeBack rd 0#32 len (s.emit (.ioLoad ea))) :=
  ⟨_, [.ioLoad ea], rfl, by simp [State.writeReg_events], .ioLoad ea⟩

theorem reports_loadWordInto : Reports (some rd) s (loadWordInto rd ea len s) := by
  unfold loadWordInto
  obtain h | h | h := s.loadWord_cases ea <;> rw [h]
  · exact reports_ioLoad ..
  · exact reports_writeBack ..
  · exact reports_raise ..

theorem reports_loadByteInto : Reports (some rd) s (loadByteInto rd ea len s) := by
  unfold loadByteInto
  obtain h | h | h := s.loadByte_cases ea <;> rw [h]
  · exact reports_ioLoad ..
  · exact reports_writeBack ..
  · exact reports_raise ..

theorem reports_storeWord : Reports none s (finishStore len (s.storeWord ea v) s) := by
  obtain h | h | ⟨h, -⟩ | h := s.storeWord_cases ea v <;> rw [h]
  · exact ⟨_, [.ioStore ea v], rfl, rfl, .ioStore ea v⟩
  · exact reports_raise ..
  · exact reports_nothing none s (s.memWrite_events ..)
  · exact reports_raise ..

theorem reports_storeDirect : Reports none s (finishStore len (s.storeDirect ea v) s) := by
  obtain ⟨n, h, -⟩ | h | h := s.storeDirect_cases ea v <;> rw [h]
  · exact reports_nothing none s (s.memWrite_events ..)
  · exact reports_raise ..
  · exact reports_raise ..

end Reports

/-- What every instruction reports, by the way it ends. -/
theorem exec_reports (i : Instr) (s : State) : Reports (destination i) s (exec i s) := by
  cases i
  case lw | cLw => exact reports_loadWordInto ..
  case lbu => exact reports_loadByteInto ..
  case sw | cSw => exact reports_storeWord ..
  case cSwsp => exact reports_storeDirect ..
  case jal | cJal => exact reports_jumpAndLink ..
  case bne | blt | bge | bltu | bgeu | cBeqz | cBnez => exact reports_branch ..
  case cJ | cJr => exact reports_nothing none s rfl
  all_goals exact reports_writeBack ..

theorem exec_report {i : Instr} {s t : State} (he : exec i s = .next t) :
    ∃ d, t.events = s.events ++ d ∧ Report (destination i) d := by
  obtain ⟨u, d, hu, hd⟩ := exec_reports i s
  rw [he] at hu
  cases hu
  exact ⟨d, hd⟩

/-- Settles O57: `exec` runs on the state that holds the trace event already. -/
theorem traceComesBeforeTheDiagnostic : Obligations.TraceComesBeforeTheDiagnostic := by
  intro s t raw i _ hdec hstep hrun
  obtain ⟨f, rfl⟩ | ⟨raw', i', hdec', he, -⟩ := step_halts_or_completes hstep
  · cases hrun
  · rw [hdec] at hdec'
    cases hdec'
    obtain ⟨d, hevents, hreport⟩ := exec_report he
    refine ⟨d, ?_, hreport.length_le_one, fun e => hreport.diagnostic⟩
    rw [hevents, State.traced_events, List.append_assoc, List.singleton_append]

/-- Settles O58: the destination must be register 0. Popular registers, sp and ra are not, and C.LUI, C.MV and C.ADD have a
guard against it (30_encoding.md R110). -/
theorem x0WriteComesOnlyFromDestinationZero : Obligations.X0WriteComesOnlyFromDestinationZero := by
  intro i s t v hwf he hmem
  obtain ⟨d, hevents, hreport⟩ := exec_report he
  rw [hevents, List.drop_left] at hmem
  obtain ⟨hv, hdest⟩ := hreport.of_x0Write_mem hmem
  refine ⟨hv, ?_⟩
  cases i
  case lui | auipc | jal | addi | andi | add | sub | xor | lbu | lw | cAddi | cLi =>
    cases hdest
    simp
  case cAddi4spn | cLw | cAndi => exact absurd (Option.some.inj hdest) (popular_ne_zero _)
  case cAddi16spField0 | cAddi16spField2 | cJal => exact absurd (Option.some.inj hdest) (by decide)
  case cLui => exact absurd (Option.some.inj hdest) (wf_cLui hwf).1
  case cMv => exact absurd (Option.some.inj hdest) (wf_cMv hwf).1
  case cAdd => exact absurd (Option.some.inj hdest) (wf_cAdd hwf).1
  all_goals cases hdest

end Sys2Proof.Machine

/-! Proofs for the family `70_reset_and_hazards.md`: what memory holds after reset, and the unit that jumps to itself. -/

namespace Sys2Proof.Machine

/-! ## The loaded image (70_reset_and_hazards.md R300; 10_state.md R34) -/

/-- An image lists its first byte at `base`, unless that byte is the unlisted one, which is then read all the same. -/
theorem Memory.read_ofImage_cons (base k : Nat) (b : Byte) (rest : List Byte) :
    (ofImage base (b :: rest)).read k = if base = k then b else (ofImage (base + 1) rest).read k := by
  rw [ofImage]
  split
  case isTrue hb =>
    split
    case isTrue hk =>
      subst hk hb
      exact read_of_lt (wfFrom_ofImage (base + 1) rest) (Nat.lt_succ_self base)
    case isFalse => rfl
  case isFalse => rfl

/-- Memory made of an image reads the image's bytes from `base` on, and the unlisted byte above them. -/
theorem Memory.read_ofImage (base k : Nat) (image : List Byte) :
    (ofImage base image).read (base + k) = image[k]?.getD unlisted := by
  induction image generalizing base k with
  | nil => rfl
  | cons b rest ih =>
    rw [read_ofImage_cons]
    cases k with
    | zero => exact if_pos rfl
    | succ k =>
      have hshift : base + (k + 1) = base + 1 + k := by omega
      rw [if_neg (by omega), hshift, ih, List.getElem?_cons_succ]

theorem State.resetWith_mem {image : List Byte} {c : Config} (hfits : image.length ≤ c.memSize) :
    (State.resetWith image c).mem = Memory.ofImage 0 image :=
  congrArg (Memory.ofImage 0) (List.take_of_length_le hfits)

/-- After reset, backing memory reads as the image, if it fits. -/
theorem State.readByte_resetWith {image : List Byte} {c : Config} (hfits : image.length ≤ c.memSize) (k : Nat) :
    (State.resetWith image c).readByte k = image[k]?.getD Memory.unlisted := by
  rw [State.readByte, resetWith_mem hfits, ← Memory.read_ofImage 0, Nat.zero_add]

theorem State.readReg_resetWith (image : List Byte) (c : Config) (r : RegIdx) :
    (State.resetWith image c).readReg r = 0#32 := by
  by_cases hr : r = 0
  · exact if_pos hr
  · rw [State.readReg_ne_zero _ hr]
    exact Vector.getElem_replicate r.isLt

/-- Settles O1: `readByte_resetWith` gives both ranges of addresses, `unlisted` being 0 above the image. -/
theorem resetLoadsTheImage : Obligations.ResetLoadsTheImage := by
  intro image c hfits
  refine ⟨rfl, rfl, State.readReg_resetWith image c, fun k hk => ?_, fun k hk => ?_, rfl, rfl⟩
  · rw [State.readByte_resetWith hfits, List.getElem?_eq_getElem hk, Option.getD_some]
  · rw [State.readByte_resetWith hfits, List.getElem?_eq_none hk, Option.getD_none, Memory.unlisted]

/-! ## The jump to itself (70_reset_and_hazards.md R308; 45_compressed_control.md R222) -/

theorem decodeRaw_selfJump : decodeRaw (.unit 0xA001#16) = some (.cJ 0#12) := by decide

theorem State.setPc_self (s : State) : s.setPc s.pc = s := rfl

theorem exec_selfJump (s : State) : exec (.cJ 0#12) s = .next s := by
  have hjump : exec (.cJ 0#12) s = .next (s.setPc (s.pc + sext 0#12)) := rfl
  have htarget : s.pc + sext 0#12 = s.pc := BitVec.add_zero s.pc
  rw [hjump, htarget, State.setPc_self]

/-- The next step of a running core executes the unit 0xA001, at an even pc in memory. -/
structure State.AtSelfJump (s : State) : Prop where
  running : s.run = .running
  pc_even : s.pc.getLsbD 0 = false
  in_memory : s.pc.toNat + 2 ≤ s.cfg.memSize
  unit_at_pc : s.memRead16 s.pc.toNat = 0xA001#16

/-- `AtSelfJump` does not speak of the event list. -/
theorem State.AtSelfJump.withEvents {s : State} (h : s.AtSelfJump) (l : List Event) :
    State.AtSelfJump { s with events := l } := ⟨h.running, h.pc_even, h.in_memory, h.unit_at_pc⟩

/-- The jump to itself leaves its trace event and changes nothing else. -/
theorem State.AtSelfJump.step_eq {s : State} (h : s.AtSelfJump) :
    step s = .next (s.traced (.unit 0xA001#16) (.cJ 0#12)) := by
  have hfetch : s.fetch16 s.pc = .ok 0xA001#16 := by rw [s.fetch16_ok _ h.in_memory, h.unit_at_pc]
  have hraw : s.fetchRaw = .ok (.unit 0xA001#16) := State.fetchRaw_unit hfetch (by decide)
  have hdec := State.fetchDecode_of_fetchRaw h.pc_even hraw decodeRaw_selfJump
  rw [step_of_fetchDecode_ok h.running hdec, exec_selfJump]
  exact commit_running h.running

/-- Whatever a core at a jump to itself reaches differs from it in the event list only. -/
theorem State.AtSelfJump.reaches {s t : State} (h : s.AtSelfJump) (hreach : Reaches s t) :
    ∃ l, t = { s with events := l } := by
  induction hreach with
  | refl => exact ⟨s.events, rfl⟩
  | next _ hs ih =>
    obtain ⟨l, rfl⟩ := ih
    rw [(h.withEvents l).step_eq] at hs
    cases hs
    exact ⟨_, rfl⟩

/-- Settles O59. -/
theorem jumpToItselfNeverHalts : Obligations.JumpToItselfNeverHalts := by
  intro s hrun heven hin hunit
  have hjump : s.AtSelfJump := ⟨hrun, heven, hin, hunit⟩
  refine ⟨fun t hreach => ?_, fun t hreach => ?_⟩
  · obtain ⟨l, rfl⟩ := hjump.reaches hreach
    exact hrun
  · obtain ⟨l, rfl⟩ := hjump.reaches hreach
    exact ⟨rfl, fun r => rfl, fun a => rfl⟩

end Sys2Proof.Machine
